-- ==== Sys2Proof/Word.lean ====
section
/-! DEFINITION. The one word of the machine: a byte. Every register, memory cell, address and the pc is one byte
(spec/00_scope.md R5, R6, `XLEN` = 8). Its arithmetic is in Machine/Alu.lean. -/

namespace Sys2Proof

/-- A byte, an integer 0 to 255; bit 0 is the least significant bit (00_scope.md R6). -/
abbrev Byte := BitVec 8

end Sys2Proof
end

