-- ==== Sys2Proof/Machine/Alu.lean ====
section
/-! DEFINITION. The adders and the multiplier: the primitives `add8`, `sub8`, `mul8` of spec/00_scope.md R7
(spec/10_state.md R23, spec/41_alu.md R112). Every result is kept modulo 256; there is no carry and no overflow flag. -/

namespace Sys2Proof.Machine

/-- `(a + b) mod 256` (00_scope.md R7). -/
def add8 (a b : Byte) : Byte := a + b

/-- `(a - b) mod 256` (00_scope.md R7). -/
def sub8 (a b : Byte) : Byte := a - b

/-- `(a * b) mod 256` (00_scope.md R7). -/
def mul8 (a b : Byte) : Byte := a * b

end Sys2Proof.Machine
end

