-- ==== Sys2Proof/Config.lean ====
section
/-! DEFINITION. What an instance of the hardware fixes: the two parameters `SP_RESET` and `OPC` of
spec/00_scope.md R5, and the closed set of mnemonics that `OPC` maps (R1). The defaults are in Decode.lean
(`defaultOpc`) and Machine/Params.lean (`defaultSpReset`, `defaultConfig`). The hardware leaves no value free, so
there is no free value here (spec/93_implementation_defined.md section 1). -/

namespace Sys2Proof

/-- The 13 mnemonics of the closed instruction set, in the table's order (00_scope.md R1, 30_encoding.md R78). -/
inductive Mnemonic where
  | ldi | prn | hlt | mul | add | push | pop | call | ret | cmp | jmp | jeq | jne
  deriving DecidableEq, Repr

/-- The four instruction formats (30_encoding.md R70). -/
inductive Format where
  /-- no operand, 1 byte -/
  | formN
  /-- one register, 2 bytes -/
  | formR
  /-- two registers, 3 bytes -/
  | formRR
  /-- register and immediate, 3 bytes -/
  | formRI
  deriving DecidableEq, Repr

/-- A map from mnemonics to opcode bytes: the type of the parameter `OPC` (30_encoding.md R78). -/
abbrev OpcodeMap := Mnemonic → Byte

/-- The configuration, a parameter of the step function and no state (10_state.md R47). -/
structure Config where
  /-- `SP_RESET`: what reset puts in register 7 (00_scope.md R5, 70_reset_and_hazards.md R193). -/
  spReset : Byte
  /-- `OPC`: the opcode byte of each mnemonic (30_encoding.md R78). -/
  opc : OpcodeMap
  /-- The one law `OPC` must obey (30_encoding.md R79). -/
  opc_injective : Function.Injective opc

end Sys2Proof
end

