-- ==== Sys2Proof/Syntax.lean ====
section
/-! DEFINITION. The instructions: one constructor per row of spec/opcode_table.json. An operand field holds the
whole operand byte, for every value of it: a register operand above 7 is a legal encoding that faults only when the
instruction uses it (spec/30_encoding.md R73, R81), so it is the machine that checks it, not the syntax. -/

namespace Sys2Proof

/-- An instruction with the operand bytes its format has (30_encoding.md R70); `a` is byte 1, `b` or `imm` byte 2. -/
inductive Instr where
  /-- LDI, load-immediate: `x[a] <- imm` (R100). -/
  | ldi (a imm : Byte)
  /-- PRN, print: emit `x[a]` (R101). -/
  | prn (a : Byte)
  /-- HLT, halt (R102). -/
  | hlt
  /-- MUL, multiply: `x[a] <- x[a] * x[b]` (R110). -/
  | mul (a b : Byte)
  /-- ADD, add: `x[a] <- x[a] + x[b]` (R111). -/
  | add (a b : Byte)
  /-- PUSH: push `x[a]` (R120). -/
  | push (a : Byte)
  /-- POP: pop into `x[a]` (R121). -/
  | pop (a : Byte)
  /-- CALL: push the return address, jump to `x[a]` (R122). -/
  | call (a : Byte)
  /-- RET: pop the pc (R123). -/
  | ret
  /-- CMP: compare `x[a]` with `x[b]` (R140). -/
  | cmp (a b : Byte)
  /-- JMP: jump to `x[a]` (R141). -/
  | jmp (a : Byte)
  /-- JEQ: jump to `x[a]` if the equal bit is set (R142). -/
  | jeq (a : Byte)
  /-- JNE: jump to `x[a]` if the equal bit is clear (R143). -/
  | jne (a : Byte)
  deriving DecidableEq, Repr

end Sys2Proof
end

