-- ==== Sys2Proof/Decode.lean ====
section
/-! DEFINITION. Decoding and encoding (spec/30_encoding.md). Decoding is total on the three fetched bytes, looks
only at the first to find the instruction, and rejects every other byte by name. The encoder is written from the
same format table. Both take the opcode map, so they hold for every `OPC`. -/

namespace Sys2Proof

/-- The mnemonics in the order of the opcode table (30_encoding.md R78). -/
def Mnemonic.all : List Mnemonic :=
  [.ldi, .prn, .hlt, .mul, .add, .push, .pop, .call, .ret, .cmp, .jmp, .jeq, .jne]

/-- The default opcode bytes. PRESUMED: 30_encoding.md R78 marks each value as general knowledge, not in the
source. Unsafe (log entry 1). -/
def defaultOpc : OpcodeMap
  | .ldi => 0x82
  | .prn => 0x47
  | .hlt => 0x01
  | .mul => 0xA2
  | .add => 0xA0
  | .push => 0x45
  | .pop => 0x46
  | .call => 0x50
  | .ret => 0x11
  | .cmp => 0xA7
  | .jmp => 0x54
  | .jeq => 0x55
  | .jne => 0x56

/-- The default map obeys the law of 30_encoding.md R79. -/
theorem defaultOpc_injective : Function.Injective defaultOpc := by
  intro a b h
  cases a <;> cases b <;> first | rfl | exact absurd h (by decide)

/-- Each mnemonic's format (30_encoding.md R70). -/
def Mnemonic.format : Mnemonic → Format
  | .hlt | .ret => .formN
  | .prn | .push | .pop | .call | .jmp | .jeq | .jne => .formR
  | .mul | .add | .cmp => .formRR
  | .ldi => .formRI

/-- The number of bytes of a format (30_encoding.md R70). -/
def Format.length : Format → Nat
  | .formN => 1
  | .formR => 2
  | .formRR => 3
  | .formRI => 3

/-- The instruction's length, a property of the opcode alone (30_encoding.md R70, R71). -/
def Mnemonic.length (m : Mnemonic) : Nat := m.format.length

/-- `Decode(b)`: the mnemonic whose opcode byte is `b`, if there is one (30_encoding.md R83). -/
def decodeOpcode (opc : OpcodeMap) (b : Byte) : Option Mnemonic :=
  Mnemonic.all.find? fun m => decide (opc m = b)

/-- The three bytes one step fetches: opcode byte, operand bytes A and B (00_scope.md R8). -/
structure FetchedBytes where
  ir : Byte
  opA : Byte
  opB : Byte
  deriving DecidableEq, Repr

/-- The fetched bytes in the order of their addresses (20_memory.md R53). -/
def FetchedBytes.toList (f : FetchedBytes) : List Byte := [f.ir, f.opA, f.opB]

/-- What decoding answers: an instruction, or the name of why there is none. -/
inductive Decoded where
  | instr (i : Instr)
  /-- The byte is no opcode (30_encoding.md R80). -/
  | illegalInstruction (ir : Byte)
  deriving DecidableEq, Repr

/-- The instruction of a mnemonic over the two operand bytes; a byte the format lacks is dropped (30_encoding.md R75). -/
def Mnemonic.instr (m : Mnemonic) (opA opB : Byte) : Instr :=
  match m with
  | .ldi => .ldi opA opB
  | .prn => .prn opA
  | .hlt => .hlt
  | .mul => .mul opA opB
  | .add => .add opA opB
  | .push => .push opA
  | .pop => .pop opA
  | .call => .call opA
  | .ret => .ret
  | .cmp => .cmp opA opB
  | .jmp => .jmp opA
  | .jeq => .jeq opA
  | .jne => .jne opA

/-- Decoding of three fetched bytes: a look-up of the first byte, then the format's operands (30_encoding.md R72, R82). -/
def decode (opc : OpcodeMap) (f : FetchedBytes) : Decoded :=
  match decodeOpcode opc f.ir with
  | some m => .instr (m.instr f.opA f.opB)
  | none => .illegalInstruction f.ir

/-- The mnemonic of an instruction. -/
def Instr.mnemonic : Instr → Mnemonic
  | .ldi _ _ => .ldi
  | .prn _ => .prn
  | .hlt => .hlt
  | .mul _ _ => .mul
  | .add _ _ => .add
  | .push _ => .push
  | .pop _ => .pop
  | .call _ => .call
  | .ret => .ret
  | .cmp _ _ => .cmp
  | .jmp _ => .jmp
  | .jeq _ => .jeq
  | .jne _ => .jne

/-- The bytes of an instruction, lowest address first (30_encoding.md R70, R87's table). -/
def encode (opc : OpcodeMap) : Instr → List Byte
  | .ldi a imm => [opc .ldi, a, imm]
  | .prn a => [opc .prn, a]
  | .hlt => [opc .hlt]
  | .mul a b => [opc .mul, a, b]
  | .add a b => [opc .add, a, b]
  | .push a => [opc .push, a]
  | .pop a => [opc .pop, a]
  | .call a => [opc .call, a]
  | .ret => [opc .ret]
  | .cmp a b => [opc .cmp, a, b]
  | .jmp a => [opc .jmp, a]
  | .jeq a => [opc .jeq, a]
  | .jne a => [opc .jne, a]

/-- The three bytes of a table word: the low `nbits` bits of `w`, byte 0 lowest, zeros above (20_memory.md R53). -/
def tableWordBytes (nbits w : Nat) : FetchedBytes :=
  let v := w % 2 ^ nbits
  ⟨BitVec.ofNat 8 v, BitVec.ofNat 8 (v / 256), BitVec.ofNat 8 (v / 65536)⟩

/-- The instruction the decoder reads from a table word under the default opcode map. -/
def decodeTableWord (nbits w : Nat) : Option Instr :=
  match decode defaultOpc (tableWordBytes nbits w) with
  | .instr i => some i
  | .illegalInstruction _ => none

end Sys2Proof
end

