-- ==== Sys2Proof/Machine/Params.lean ====
section
/-! DEFINITION. The default configuration: the value the model takes for each parameter of spec/00_scope.md R5. -/

namespace Sys2Proof.Machine

/-- `SP_RESET`, the spec's named constant, default 0x00 (00_scope.md R5, 70_reset_and_hazards.md R193). -/
def defaultSpReset : Byte := 0x00

/-- The configuration of the modelled instance: both parameters at the defaults the spec
gives them (00_scope.md R5; the opcode bytes: log entry 1). -/
def defaultConfig : Config where
  spReset := defaultSpReset
  opc := defaultOpc
  opc_injective := defaultOpc_injective

end Sys2Proof.Machine
end

