-- ==== Sys2Proof/Machine/State.lean ====
section
/-! DEFINITION. The state of the machine, as plain data, and the state after reset (spec/10_state.md R45, R47). -/

namespace Sys2Proof.Machine

/-- The memory array: the cells that do not hold 0x00, as (address, byte) pairs (10_state.md R40). -/
structure Memory where
  cells : List Host.Cell
  deriving DecidableEq, Repr

/-- What a cell that is not listed reads as: the reset contents 0x00 (10_state.md R45, R46; log entry 8). -/
def Memory.unlisted : Byte := 0x00

/-- The canonical form: addresses strictly rising and inside the 256 cells, no entry equal to an unlisted cell. -/
abbrev Memory.wf (m : Memory) : Prop :=
  m.cells.Pairwise (fun c d => c.1 < d.1) ∧ ∀ c ∈ m.cells, c.1 < 256 ∧ c.2 ≠ Memory.unlisted

/-- The fault latch's values; the code 3 is never produced, so it has no constructor (10_state.md R38). -/
inductive FaultLatch where
  /-- code 0 -/
  | noFault
  /-- code 1, ILLEGAL_INSTRUCTION -/
  | illegalInstruction
  /-- code 2, REGISTER_INDEX -/
  | registerIndex
  deriving DecidableEq, Repr

/-- The run state, a function of the fault latch and the running flag (10_state.md R39). -/
inductive RunState where
  | running
  | halted
  | faulted
  deriving DecidableEq, Repr

/-- The state: the tuple of 10_state.md R47 with the output history. -/
structure State where
  /-- the memory array (R21, R40) -/
  mem : Memory
  /-- the registers `x[0]` to `x[7]`; `x[7]` is the stack pointer (R30, R32) -/
  x : Vector Byte 8
  /-- the program counter (R34) -/
  pc : Byte
  /-- the flags register: bit 0 E, bit 1 G, bit 2 L (R36) -/
  fl : Byte
  /-- the running flag (R37) -/
  running : Bool
  /-- the fault latch (R38) -/
  fault : FaultLatch
  /-- the information byte beside the latch (R38) -/
  faultInfo : Byte
  /-- the bytes PRN has emitted since reset, oldest first (R42) -/
  out : List Byte
  deriving DecidableEq, Repr

/-- The error a run surfaces to its caller when the unit is FAULTED (60_exceptions.md R160, R165, R168). No step
and no instruction answers one: a step that raises answers a NEXT state with the latch written (R164), and
`State.surfacedError` reads it off that state. Safe: it adds no behaviour. -/
inductive Fault where
  /-- The opcode byte is no opcode (R161). Surfaced by a FAULTED state with code 1; safe. -/
  | illegalInstruction (opcode : Byte)
  /-- An operand byte used as a register index is above 7 (R162). Surfaced by a FAULTED state with code 2; safe. -/
  | registerIndex (operand : Byte)
  deriving DecidableEq, Repr

/-- Inputs the spec gives no meaning (70_reset_and_hazards.md R189). -/
inductive Refusal where
  /-- An instruction that has no meaning yet; raised by no arm of this model. Safe. -/
  | notModelled (mnemonic : String)
  /-- `load` of more than 256 bytes; raised by `hostLoad` (R189). Safe: the whole call is refused. -/
  | loadTooLong (count : Nat)
  /-- A host value above 255; raised by `hostLoad` and `hostWrite` (R189). Safe. -/
  | hostValueTooWide (value : Nat)
  /-- A host address above 255; raised by `hostRead` and `hostWrite` (R189). Safe. -/
  | hostAddressTooWide (address : Nat)
  deriving DecidableEq, Repr

/-- The state after reset for a value of `SP_RESET` (10_state.md R45, 70_reset_and_hazards.md R180). -/
def State.resetWith (spReset : Byte) : State where
  mem := ⟨[]⟩
  x := #v[0, 0, 0, 0, 0, 0, 0, spReset]
  pc := 0
  fl := 0
  running := true
  fault := .noFault
  faultInfo := 0
  out := []

/-- The machine right after reset, with the default configuration (10_state.md R45). -/
def State.reset : State := State.resetWith defaultConfig.spReset

end Sys2Proof.Machine
end

