-- ==== Sys2Proof/Machine/Ops.lean ====
section
/-! DEFINITION. The named operations over memory, registers, pc, flags, output and latch: the only readers and
writers of the state (spec/00_scope.md R7). -/

namespace Sys2Proof.Machine

/-- Raw read of one cell by its address (20_memory.md R50). -/
def Memory.read (m : Memory) (a : Byte) : Byte :=
  match m.cells.find? fun c => c.1 == a.toNat with
  | some c => c.2
  | none => Memory.unlisted

/-- Raw write of one cell, keeping the canonical form (20_memory.md R51). -/
def Memory.write (m : Memory) (a v : Byte) : Memory :=
  ⟨m.cells.filter (fun c => decide (c.1 < a.toNat))
    ++ (if v = Memory.unlisted then [] else [(a.toNat, v)])
    ++ m.cells.filter (fun c => decide (a.toNat < c.1))⟩

/-- `MemRead(addr, 1)` (20_memory.md R50). -/
def State.memRead (s : State) (a : Byte) : Byte := s.mem.read a

/-- `MemWrite(addr, 1, v)` (20_memory.md R51). -/
def State.memWrite (s : State) (a v : Byte) : State := { s with mem := s.mem.write a v }

/-- `x[i]` (00_scope.md R7). -/
def State.reg (s : State) (i : Fin 8) : Byte := s.x.get i

/-- `x[i] <- v` (00_scope.md R7). -/
def State.setReg (s : State) (i : Fin 8) (v : Byte) : State := { s with x := s.x.set i v }

/-- The index of the stack pointer, `SP_INDEX` (00_scope.md R5, 10_state.md R32). -/
def spIndex : Fin 8 := 7

/-- `SP`, another name for `x[7]` (10_state.md R32). -/
def State.sp (s : State) : Byte := s.reg spIndex

/-- `x[7] <- sub8(x[7], 1)` (10_state.md R26). -/
def State.decSp (s : State) : State := s.setReg spIndex (sub8 s.sp 1#8)

/-- `x[7] <- add8(x[7], 1)` (10_state.md R26). -/
def State.incSp (s : State) : State := s.setReg spIndex (add8 s.sp 1#8)

/-- `pc <- target` (00_scope.md R7). -/
def State.setPc (s : State) (target : Byte) : State := { s with pc := target }

/-- `pc <- add8(pc, n)` (10_state.md R24). -/
def State.advance (s : State) (n : Byte) : State := s.setPc (add8 s.pc n)

/-- `fl <- v` (00_scope.md R7). -/
def State.setFl (s : State) (v : Byte) : State := { s with fl := v }

/-- `Emit(v)`: hand `v` to the output sink (10_state.md R42). -/
def State.emit (s : State) (v : Byte) : State := { s with out := s.out ++ [v] }

/-- `running <- 0` (40_move_io_halt.md R102). -/
def State.halt (s : State) : State := { s with running := false }

/-- Taking a fault: the latch and its information byte are written and nothing else (60_exceptions.md R161, R162,
R164). There is no return from it but reset (R167). -/
def State.raise (s : State) (code : FaultLatch) (info : Byte) : State :=
  { s with fault := code, faultInfo := info }

/-- The run state (10_state.md R39). -/
def State.runState (s : State) : RunState :=
  match s.fault, s.running with
  | .noFault, true => .running
  | .noFault, false => .halted
  | .illegalInstruction, _ => .faulted
  | .registerIndex, _ => .faulted

/-- The latch as the two-bit code of the `fault` port (10_state.md R29, R38). -/
def FaultLatch.code : FaultLatch → BitVec 2
  | .noFault => 0
  | .illegalInstruction => 1
  | .registerIndex => 2

/-- The three unconditional reads of the fetch, at `pc`, `pc + 1`, `pc + 2` modulo 256 (30_encoding.md R82,
20_memory.md R52, R66). -/
def fetch (s : State) : FetchedBytes :=
  ⟨s.memRead s.pc, s.memRead (add8 s.pc 1#8), s.memRead (add8 s.pc 2#8)⟩

/-- The three bytes written where the next fetch reads them, on a unit that is RUNNING so that it fetches
(log entry 7). -/
def placeInstruction (s : State) (f : FetchedBytes) : State :=
  let t := ((s.memWrite s.pc f.ir).memWrite (add8 s.pc 1#8) f.opA).memWrite (add8 s.pc 2#8) f.opB
  { t with running := true, fault := .noFault }

end Sys2Proof.Machine
end

