-- ==== Sys2Proof/Machine/Operands.lean ====
section
/-! DEFINITION. The one operand form that is checked: an operand byte used as a register index (spec/30_encoding.md
R73, spec/60_exceptions.md R162). The other form, LDI's immediate, is the byte itself (R74). -/

namespace Sys2Proof.Machine

/-- The register an operand byte names: 0 to 7, no bit of the byte ignored (30_encoding.md R73). -/
def regIndex (b : Byte) : Option (Fin 8) :=
  if h : b.toNat < 8 then some ⟨b.toNat, h⟩ else none

/-- The index check of an operand byte before the instruction's effects `k`: above 7 it takes
`RegisterIndex(b)` and nothing else happens (60_exceptions.md R162, R164; 30_encoding.md R84). -/
def checkReg (b : Byte) (s : State) (k : Fin 8 → Host.Outcome State Fault Refusal) :
    Host.Outcome State Fault Refusal :=
  match regIndex b with
  | some i => k i
  | none => .next (s.raise .registerIndex b)

end Sys2Proof.Machine
end

