-- ==== Sys2Proof/Machine/Arith.lean ====
section
/-! DEFINITION. MUL, ADD (spec/41_alu.md R110 to R112). -/

namespace Sys2Proof.Machine

/-- The shape of both: check `a`, check `b`, read both, write `x[a]`, advance by 3; no flag changes (R110, R111). -/
def aluOp (f : Byte → Byte → Byte) (a b : Byte) (s : State) : Host.Outcome State Fault Refusal :=
  checkReg a s fun i => checkReg b s fun j => .next ((s.setReg i (f (s.reg i) (s.reg j))).advance 3#8)

/-- `Exec_MUL` (R110). -/
def execMul (a b : Byte) (s : State) : Host.Outcome State Fault Refusal := aluOp mul8 a b s

/-- `Exec_ADD` (R111). -/
def execAdd (a b : Byte) (s : State) : Host.Outcome State Fault Refusal := aluOp add8 a b s

end Sys2Proof.Machine
end

