-- ==== Sys2Proof/Machine/Flags.lean ====
section
/-! DEFINITION. The comparison and the three flag bits (spec/10_state.md R23, R36; spec/43_compare_branch.md R140).
They are the only flags of the machine; ADD and MUL compute none. -/

namespace Sys2Proof.Machine

/-- `cmp8`: E when equal, G when the first is greater, L when it is less, as unsigned bytes (10_state.md R23). -/
def cmp8 (a b : Byte) : Byte :=
  if a = b then 0b00000001
  else if b.toNat < a.toNat then 0b00000010
  else 0b00000100

/-- Bit E of a flags byte, `fl[0]` (10_state.md R36). -/
def flagE (fl : Byte) : Bool := fl.getLsbD 0

/-- Bit G of a flags byte, `fl[1]` (10_state.md R36). -/
def flagG (fl : Byte) : Bool := fl.getLsbD 1

/-- Bit L of a flags byte, `fl[2]` (10_state.md R36). -/
def flagL (fl : Byte) : Bool := fl.getLsbD 2

end Sys2Proof.Machine
end

