-- ==== Sys2Proof/Machine/CompareBranch.lean ====
section
/-! DEFINITION. CMP, JMP, JEQ, JNE (spec/43_compare_branch.md R140 to R143). -/

namespace Sys2Proof.Machine

/-- `Exec_CMP` (R140). -/
def execCmp (a b : Byte) (s : State) : Host.Outcome State Fault Refusal :=
  checkReg a s fun i => checkReg b s fun j => .next ((s.setFl (cmp8 (s.reg i) (s.reg j))).advance 3#8)

/-- The taken branch: the operand is checked and its register is the new pc (R141). -/
def jumpTo (a : Byte) (s : State) : Host.Outcome State Fault Refusal :=
  checkReg a s fun i => .next (s.setPc (s.reg i))

/-- A conditional branch: not taken, the operand is not looked at (R142, R143). -/
def branchIf (taken : Bool) (a : Byte) (s : State) : Host.Outcome State Fault Refusal :=
  if taken then jumpTo a s else .next (s.advance 2#8)

/-- `Exec_JMP` (R141). -/
def execJmp (a : Byte) (s : State) : Host.Outcome State Fault Refusal := jumpTo a s

/-- `Exec_JEQ` (R142). -/
def execJeq (a : Byte) (s : State) : Host.Outcome State Fault Refusal := branchIf (flagE s.fl) a s

/-- `Exec_JNE` (R143). -/
def execJne (a : Byte) (s : State) : Host.Outcome State Fault Refusal := branchIf (!flagE s.fl) a s

end Sys2Proof.Machine
end

