-- ==== Sys2Proof/Machine/MoveIoHalt.lean ====
section
/-! DEFINITION. LDI, PRN, HLT (spec/40_move_io_halt.md R100 to R102). -/

namespace Sys2Proof.Machine

/-- `Exec_LDI` (R100). -/
def execLdi (a imm : Byte) (s : State) : Host.Outcome State Fault Refusal :=
  checkReg a s fun i => .next ((s.setReg i imm).advance 3#8)

/-- `Exec_PRN` (R101). -/
def execPrn (a : Byte) (s : State) : Host.Outcome State Fault Refusal :=
  checkReg a s fun i => .next ((s.emit (s.reg i)).advance 2#8)

/-- `Exec_HLT` (R102). -/
def execHlt (s : State) : Host.Outcome State Fault Refusal :=
  .next (s.halt.advance 1#8)

end Sys2Proof.Machine
end

