-- ==== Sys2Proof/Machine/StackCall.lean ====
section
/-! DEFINITION. PUSH, POP, CALL, RET (spec/42_stack_call.md R120 to R126). The order of the effects is the order of
the rule's pseudocode, which settles the forms whose operand is register 7. -/

namespace Sys2Proof.Machine

/-- `Exec_PUSH` (R120): the register is read after the decrement (R124). -/
def execPush (a : Byte) (s : State) : Host.Outcome State Fault Refusal :=
  checkReg a s fun i =>
    let s1 := s.decSp
    let s2 := s1.memWrite s1.sp (s1.reg i)
    .next (s2.advance 2#8)

/-- `Exec_POP` (R121): the increment applies after the register is written (R125). -/
def execPop (a : Byte) (s : State) : Host.Outcome State Fault Refusal :=
  checkReg a s fun i =>
    let s1 := s.setReg i (s.memRead s.sp)
    let s2 := s1.incSp
    .next (s2.advance 2#8)

/-- `Exec_CALL` (R122): the target register is read after the decrement (R126). -/
def execCall (a : Byte) (s : State) : Host.Outcome State Fault Refusal :=
  checkReg a s fun i =>
    let s1 := s.decSp
    let s2 := s1.memWrite s1.sp (add8 s1.pc 2#8)
    .next (s2.setPc (s2.reg i))

/-- `Exec_RET` (R123). -/
def execRet (s : State) : Host.Outcome State Fault Refusal :=
  let s1 := s.setPc (s.memRead s.sp)
  .next s1.incSp

end Sys2Proof.Machine
end

