-- ==== Sys2Proof/Machine/Cycle.lean ====
section
/-! DEFINITION. The step cycle (spec/30_encoding.md R82) and the operation `step()` (spec/70_reset_and_hazards.md
R184), over any configuration. -/

namespace Sys2Proof.Machine

/-- The body of `Step()`: fetch three bytes, decode the first, execute or raise `IllegalInstruction` (30_encoding.md
R82, R84; 60_exceptions.md R161). -/
def fetchDecodeExecute (c : Config) (s : State) : Host.Outcome State Fault Refusal :=
  match decode c.opc (fetch s) with
  | .instr i => exec i s
  | .illegalInstruction ir => .next (s.raise .illegalInstruction ir)

/-- `step()`: one `Step()` when RUNNING; otherwise nothing changes (70_reset_and_hazards.md R184; log entry 2). -/
def stepWith (c : Config) (s : State) : Host.Outcome State Fault Refusal :=
  match s.runState with
  | .running => fetchDecodeExecute c s
  | .halted => .next s
  | .faulted => .next s

end Sys2Proof.Machine
end

