-- ==== Sys2Proof/Machine/Step.lean ====
section
/-! DEFINITION. The step of the modelled instance, and the helper by which an instruction is placed to be run next. -/

namespace Sys2Proof.Machine

/-- One step with the default configuration (30_encoding.md R82, 70_reset_and_hazards.md R184). -/
def step : State → Host.Outcome State Fault Refusal := stepWith defaultConfig

/-- `s` with a table word placed where the next step fetches it, on a RUNNING unit (log entry 7). -/
def State.withFetchWord (s : State) (nbits w : Nat) : State :=
  placeInstruction s (tableWordBytes nbits w)

end Sys2Proof.Machine
end

