-- ==== Sys2Proof/Machine/HostOps.lean ====
section
/-! DEFINITION. What the host does to the machine between steps (spec/70_reset_and_hazards.md R180 to R190, R198).
The operation `step()` is `stepWith`. The host does nothing during a step or inside `run()` (R190, log entry 6). -/

namespace Sys2Proof.Machine

/-- `rst`: every piece of state at its reset value, whatever it was (R180). -/
def hostReset (c : Config) (_ : State) : State := State.resetWith c.spReset

/-- The bytes written from address `a` upward, in order (R186). -/
def writeFrom (a : Nat) (bytes : List Nat) (s : State) : State :=
  match bytes with
  | [] => s
  | b :: rest => writeFrom (a + 1) rest (s.memWrite (BitVec.ofNat 8 a) (BitVec.ofNat 8 b))

/-- The address where `load` places byte 0, `LOAD_BASE` (00_scope.md R5). -/
def loadBase : Nat := 0

/-- `load(bytes)`: at most 256 values, each 0 to 255, copied from address 0 upward (R186); other arguments have no
meaning and are refused whole (R189). -/
def hostLoad (bytes : List Nat) (s : State) : Host.Outcome State Fault Refusal :=
  if 256 < bytes.length then .refused (.loadTooLong bytes.length)
  else
    match bytes.find? fun v => decide (255 < v) with
    | some v => .refused (.hostValueTooWide v)
    | none => .next (writeFrom loadBase bytes s)

/-- What the host's `read` answers. -/
inductive HostRead where
  | value (v : Byte)
  | refused (r : Refusal)
  deriving DecidableEq, Repr

/-- `read(addr)`: the cell's byte, nothing changed (R187); an address above 255 is refused (R189). -/
def hostRead (addr : Nat) (s : State) : HostRead :=
  if 255 < addr then .refused (.hostAddressTooWide addr)
  else .value (s.memRead (BitVec.ofNat 8 addr))

/-- `write(addr, value)` (R188); an address or value above 255 is refused (R189). -/
def hostWrite (addr value : Nat) (s : State) : Host.Outcome State Fault Refusal :=
  if 255 < addr then .refused (.hostAddressTooWide addr)
  else if 255 < value then .refused (.hostValueTooWide value)
  else .next (s.memWrite (BitVec.ofNat 8 addr) (BitVec.ofNat 8 value))

/-- The status ports `running`, `fault`, `fault_info` (10_state.md R29; 60_exceptions.md R168). -/
structure Status where
  running : Bool
  fault : BitVec 2
  faultInfo : Byte
  deriving DecidableEq, Repr

/-- What the host sees of the control state (10_state.md R29). -/
def State.status (s : State) : Status := ⟨s.running, s.fault.code, s.faultInfo⟩

/-- The error a FAULTED unit surfaces to the caller (60_exceptions.md R165, R168). -/
def State.surfacedError (s : State) : Option Fault :=
  match s.fault with
  | .noFault => none
  | .illegalInstruction => some (.illegalInstruction s.faultInfo)
  | .registerIndex => some (.registerIndex s.faultInfo)

/-- `run()` cut off after `n` iterations of its loop: it steps while the run state is RUNNING (30_encoding.md R85). -/
def runFor (c : Config) : Nat → State → Host.Outcome State Fault Refusal
  | 0, s => .next s
  | n + 1, s =>
    match s.runState with
    | .running =>
      match stepWith c s with
      | .next t => runFor c n t
      | .fault e => .fault e
      | .refused r => .refused r
    | .halted => .next s
    | .faulted => .next s

/-- The two ways `run()` returns (70_reset_and_hazards.md R185, R198). -/
inductive RunEnd where
  /-- HALTED, the only successful end, with the state HLT left. -/
  | success (final : State)
  /-- FAULTED, a failed run, with the error surfaced to the caller. -/
  | failure (final : State) (error : Fault)
  deriving DecidableEq, Repr

/-- How a state ends a run, if it does (R185). -/
def State.runEnd (s : State) : Option RunEnd :=
  match s.surfacedError with
  | some e => some (.failure s e)
  | none => if s.running then none else some (.success s)

/-- `run()` started at `s` returns with `e`: some number of iterations of its loop reaches it. A run for which no
`e` has this is the third end of R198, the run that never returns. -/
def RunReturns (c : Config) (s : State) (e : RunEnd) : Prop :=
  ∃ n t, runFor c n s = .next t ∧ t.runEnd = some e

end Sys2Proof.Machine
end

