-- ==== Sys2Proof/Safety.lean ====
section
/-! DEFINITION. The terms of the claims: the machine's invariant, the states it can reach, and what it means that a
part of the state is unchanged. -/

namespace Sys2Proof

open Sys2Proof.Machine

/-- The values `fl` can hold: no bit, or exactly one of E, G, L (10_state.md R36). -/
abbrev legalFlags (fl : Byte) : Prop := fl = 0 ∨ fl = 1 ∨ fl = 2 ∨ fl = 4

/-- The invariant of the machine: memory is canonical, the flags are legal (10_state.md R36), FAULTED has
`running` = 1 (R39), and without a fault the information byte still has its reset value (R38). -/
structure MachineInv (s : State) : Prop where
  mem_wf : s.mem.wf
  flags_legal : legalFlags s.fl
  faulted_running : s.fault ≠ .noFault → s.running = true
  info_clear : s.fault = .noFault → s.faultInfo = 0

/-- The states reached from reset by steps and by the host's acts between them (70_reset_and_hazards.md R190). -/
inductive Reachable (c : Config) : State → Prop where
  | reset : Reachable c (State.resetWith c.spReset)
  | step (s t : State) : Reachable c s → stepWith c s = .next t → Reachable c t
  | load (s t : State) (bytes : List Nat) : Reachable c s → hostLoad bytes s = .next t → Reachable c t
  | write (s t : State) (addr value : Nat) : Reachable c s → hostWrite addr value s = .next t → Reachable c t

/-- Every byte of memory reads as before. -/
def SameMemory (s t : State) : Prop := ∀ a : Byte, t.memRead a = s.memRead a

/-- Every byte of memory outside the address `w` reads as before. -/
def SameMemoryBut (w : Byte) (s t : State) : Prop := ∀ a : Byte, a ≠ w → t.memRead a = s.memRead a

/-- Every register reads as before. -/
def SameRegs (s t : State) : Prop := ∀ k : Fin 8, t.reg k = s.reg k

/-- Every register but those in `ws` reads as before. -/
def SameRegsBut (ws : List (Fin 8)) (s t : State) : Prop := ∀ k : Fin 8, k ∉ ws → t.reg k = s.reg k

/-- The running flag, the fault latch and its information byte are as before. -/
def SameControl (s t : State) : Prop :=
  t.running = s.running ∧ t.fault = s.fault ∧ t.faultInfo = s.faultInfo

/-- The flags and the output are as before. -/
def SameFlagsOut (s t : State) : Prop := t.fl = s.fl ∧ t.out = s.out

/-- The state a step that raises leaves: the latch is written and nothing else (60_exceptions.md R164). -/
def Latched (s : State) (code : FaultLatch) (info : Byte) : State :=
  { s with fault := code, faultInfo := info }

/-- The index of the register an operand byte below 8 names; statements use it on no other byte (30_encoding.md R73). -/
def operandIndex (b : Byte) : Fin 8 := ⟨b.toNat % 8, Nat.mod_lt _ (by decide)⟩

/-- The register an operand byte below 8 names. -/
def Machine.State.regAt (s : State) (b : Byte) : Byte := s.reg (operandIndex b)

/-- The operand bytes an instruction uses as register indices, in the order they are checked: the table of
60_exceptions.md R162 in the order of R163. -/
def checkedOperands (fl : Byte) : Instr → List Byte
  | .ldi a _ => [a]
  | .prn a | .push a | .pop a | .call a | .jmp a => [a]
  | .mul a b | .add a b | .cmp a b => [a, b]
  | .jeq a => if fl.toNat % 2 = 1 then [a] else []
  | .jne a => if fl.toNat % 2 = 0 then [a] else []
  | .hlt | .ret => []

/-- The first checked operand byte above 7, if there is one (60_exceptions.md R163). -/
def badOperand (fl : Byte) (i : Instr) : Option Byte :=
  (checkedOperands fl i).find? fun b => decide (7 < b.toNat)

/-- The latch and the information byte after a step of a RUNNING unit (60_exceptions.md R163). -/
def expectedLatch (c : Config) (s : State) : FaultLatch × Byte :=
  match decode c.opc (fetch s) with
  | .illegalInstruction ir => (.illegalInstruction, ir)
  | .instr i =>
    match badOperand s.fl i with
    | some b => (.registerIndex, b)
    | none => (s.fault, s.faultInfo)

/-- The address an instruction stores to, if it stores: PUSH and CALL, at the new stack pointer, unless they raise
(20_memory.md R55). -/
def storeAddress (s : State) : Instr → Option Byte
  | .push a | .call a => if a.toNat < 8 then some (sub8 s.sp 1#8) else none
  | .ldi _ _ | .prn _ | .hlt | .mul _ _ | .add _ _ | .pop _ | .ret | .cmp _ _ | .jmp _ | .jeq _ | .jne _ => none

/-- What an instruction appends to the output: PRN its register, unless it raises; nothing else (10_state.md R42). -/
def emitted (s : State) : Instr → List Byte
  | .prn a => if a.toNat < 8 then [s.regAt a] else []
  | .ldi _ _ | .hlt | .mul _ _ | .add _ _ | .push _ | .pop _ | .call _ | .ret | .cmp _ _ | .jmp _ | .jeq _ | .jne _ => []

/-- The registers an instruction writes: the table of 10_state.md R31. -/
def writtenRegs : Instr → List (Fin 8)
  | .ldi a _ | .mul a _ | .add a _ => [operandIndex a]
  | .pop a => [operandIndex a, 7]
  | .push _ | .call _ | .ret => [7]
  | .prn _ | .hlt | .cmp _ _ | .jmp _ | .jeq _ | .jne _ => []

/-- The registers an instruction reads: the table of 10_state.md R31. -/
def readRegs (fl : Byte) : Instr → List (Fin 8)
  | .prn a | .jmp a => [operandIndex a]
  | .mul a b | .add a b | .cmp a b => [operandIndex a, operandIndex b]
  | .push a | .call a => [7, operandIndex a]
  | .pop _ | .ret => [7]
  | .jeq a => if fl.toNat % 2 = 1 then [operandIndex a] else []
  | .jne a => if fl.toNat % 2 = 0 then [operandIndex a] else []
  | .ldi _ _ | .hlt => []

/-- `(pc + n) mod 256`. -/
def pcPlus (s : State) (n : Nat) : Byte := BitVec.ofNat 8 ((s.pc.toNat + n) % 256)

/-- The pc after an instruction: the table of 10_state.md R35. -/
def pcAfter (s : State) (i : Instr) : Byte :=
  match badOperand s.fl i with
  | some _ => s.pc
  | none =>
    match i with
    | .ldi _ _ | .mul _ _ | .add _ _ | .cmp _ _ => pcPlus s 3
    | .prn _ | .push _ | .pop _ => pcPlus s 2
    | .hlt => pcPlus s 1
    | .call a => if a.toNat = 7 then sub8 s.sp 1#8 else s.regAt a
    | .ret => s.memRead s.sp
    | .jmp a => s.regAt a
    | .jeq a => if s.fl.toNat % 2 = 1 then s.regAt a else pcPlus s 2
    | .jne a => if s.fl.toNat % 2 = 0 then s.regAt a else pcPlus s 2

/-- The error-free states: no fault is latched. A run is safe when every state of it is. -/
def NoFault (s : State) : Prop := s.fault = .noFault

end Sys2Proof
end

