-- ==== Sys2Proof/WellFormed.lean ====
section
/-! DEFINITION. Well-formed instructions: every register operand names one of the 8 registers (spec/30_encoding.md
R73). That is what the assembly syntax can write (R87). It is no condition of decoding or of running: an
instruction that is not well-formed decodes too, and faults when it uses the operand (R81, log entry 9). -/

namespace Sys2Proof

/-- The operand byte names a register: it is 0 to 7 (30_encoding.md R73). -/
def namesRegister (b : Byte) : Bool := b.toNat < 8

/-- Every register operand of the instruction names a register; an immediate is never checked (30_encoding.md R73, R74). -/
def Instr.wellFormed : Instr → Bool
  | .ldi a _ => namesRegister a
  | .prn a => namesRegister a
  | .hlt => true
  | .mul a b => namesRegister a && namesRegister b
  | .add a b => namesRegister a && namesRegister b
  | .push a => namesRegister a
  | .pop a => namesRegister a
  | .call a => namesRegister a
  | .ret => true
  | .cmp a b => namesRegister a && namesRegister b
  | .jmp a => namesRegister a
  | .jeq a => namesRegister a
  | .jne a => namesRegister a

/-- `Instr.wellFormed` as a proposition. -/
abbrev Instr.WellFormed (i : Instr) : Prop := i.wellFormed = true

end Sys2Proof
end

