-- ==== Sys2Proof/Certificates/Slice0/Obligations.lean ====
section
/-! DEFINITION. The statements for the provers, from the numbered rules of the spec. `c` is any configuration, so
`OPC` is any injective map and `SP_RESET` any byte; `step` is `stepWith defaultConfig`. Statements quantify over
every state; where a rule speaks of a unit that can step, the run state is a premise. Three conventions of the model
run through them: a raise is a next state with the latch written (60_exceptions.md R164; that it is a `next` outcome is
log entry 3), a stopped unit's step is the unchanged state (70_reset_and_hazards.md R184; log entry 2), and `run()` is a
bounded loop with an existential bound (log entry 11). -/

open Sys2Proof Sys2Proof.Machine

/-! ## Fetch, decode, step -/

/-- 00_scope.md R8: the three fetched bytes come from `pc`, `pc + 1`, `pc + 2`, addresses modulo 256. -/
def Obligations.FetchReadsThreeConsecutiveBytes : Prop :=
  ∀ s : State,
    (fetch s).ir = s.memRead s.pc ∧
    (fetch s).opA = s.memRead (BitVec.ofNat 8 ((s.pc.toNat + 1) % 256)) ∧
    (fetch s).opB = s.memRead (BitVec.ofNat 8 ((s.pc.toNat + 2) % 256))

/-- 30_encoding.md R82: a RUNNING unit fetches three bytes and executes the decoded instruction, or raises
`IllegalInstruction(ir)`. `step` adds nothing around `exec`; its map `defaultOpc` is that of log entry 1 (PRESUMED), and
the second clause says the same for every map. R82 gives a unit that is not RUNNING no step; that it answers the
unchanged state is 70_reset_and_hazards.md R184's `step()`, the operation the model's step is (log entry 2, DEDUCED). -/
def Obligations.StepRunsTheDecodedInstruction : Prop :=
  (∀ (s : State) (i : Instr), s.running = true → s.fault = .noFault →
    decode defaultOpc ⟨s.memRead s.pc, s.memRead (add8 s.pc 1#8), s.memRead (add8 s.pc 2#8)⟩ = .instr i →
    step s = exec i s) ∧
  (∀ (c : Config) (s : State), s.running = true → s.fault = .noFault →
    match decode c.opc ⟨s.memRead s.pc, s.memRead (add8 s.pc 1#8), s.memRead (add8 s.pc 2#8)⟩ with
    | .instr i => stepWith c s = exec i s
    | .illegalInstruction ir => ir = s.memRead s.pc ∧ stepWith c s = .next (Latched s .illegalInstruction ir)) ∧
  (∀ (c : Config) (s : State), s.running = false ∨ s.fault ≠ .noFault → stepWith c s = .next s)

/-- 60_exceptions.md R161: a byte at the pc that no mnemonic has latches `IllegalInstruction` with that byte, and
nothing else changes. -/
def Obligations.IllegalOpcodeTakesTheFault : Prop :=
  ∀ (c : Config) (s : State), s.runState = .running → (∀ m, c.opc m ≠ s.memRead s.pc) →
    stepWith c s = .next (Latched s .illegalInstruction (s.memRead s.pc))

/-- 70_reset_and_hazards.md R184 (the spec's decision D11): `step()` does one step when RUNNING and nothing otherwise. -/
def Obligations.StepDoesNothingWhenStopped : Prop :=
  ∀ (c : Config) (s : State),
    (s.runState = .running → stepWith c s = fetchDecodeExecute c s) ∧
    (s.runState = .halted ∨ s.runState = .faulted → stepWith c s = .next s)

/-- The 13 default words, written out from 30_encoding.md's opcode map. The opcode bytes are general knowledge, not
in the source (log entry 1). -/
def Obligations.DefaultWordsDecode : Prop :=
  ∀ a b : Byte,
    decode defaultOpc ⟨0b10000010, a, b⟩ = .instr (.ldi a b) ∧
    decode defaultOpc ⟨0b01000111, a, b⟩ = .instr (.prn a) ∧
    decode defaultOpc ⟨0b00000001, a, b⟩ = .instr .hlt ∧
    decode defaultOpc ⟨0b10100010, a, b⟩ = .instr (.mul a b) ∧
    decode defaultOpc ⟨0b10100000, a, b⟩ = .instr (.add a b) ∧
    decode defaultOpc ⟨0b01000101, a, b⟩ = .instr (.push a) ∧
    decode defaultOpc ⟨0b01000110, a, b⟩ = .instr (.pop a) ∧
    decode defaultOpc ⟨0b01010000, a, b⟩ = .instr (.call a) ∧
    decode defaultOpc ⟨0b00010001, a, b⟩ = .instr .ret ∧
    decode defaultOpc ⟨0b10100111, a, b⟩ = .instr (.cmp a b) ∧
    decode defaultOpc ⟨0b01010100, a, b⟩ = .instr (.jmp a) ∧
    decode defaultOpc ⟨0b01010101, a, b⟩ = .instr (.jeq a) ∧
    decode defaultOpc ⟨0b01010110, a, b⟩ = .instr (.jne a)

/-- 30_encoding.md R83: `Decode(b)` is `some m` exactly when `OPC(m) = b`, and `none` exactly when no mnemonic has
the byte, for every injective `OPC`. -/
def Obligations.ByteDecodesExactlyWhenMapped : Prop :=
  ∀ (c : Config) (b : Byte),
    (∀ m, decodeOpcode c.opc b = some m ↔ c.opc m = b) ∧
    (decodeOpcode c.opc b = none ↔ ∀ m, c.opc m ≠ b)

/-- 30_encoding.md section 4: exactly 243 of the 256 bytes are illegal, whatever the injective map is. -/
def Obligations.IllegalOpcodesNumber243 : Prop :=
  ∀ c : Config,
    ((List.range 256).filter fun n => (decodeOpcode c.opc (BitVec.ofNat 8 n)).isNone).length = 243

/-- Decoding undoes encoding: any three fetched bytes that begin with an instruction's encoding decode to it, for
every instruction, every operand byte, every following byte and every injective `OPC`. -/
def Obligations.DecodeOfEncode : Prop :=
  ∀ (c : Config) (i : Instr) (f : FetchedBytes), encode c.opc i <+: f.toList → decode c.opc f = .instr i

/-- Encoding undoes decoding: what decodes to an instruction begins with that instruction's bytes. -/
def Obligations.EncodeOfDecode : Prop :=
  ∀ (c : Config) (i : Instr) (f : FetchedBytes), decode c.opc f = .instr i → encode c.opc i <+: f.toList

/-- 30_encoding.md R75, 20_memory.md R66: an operand byte that the decoded format does not have changes nothing. -/
def Obligations.UnusedOperandBytesDoNotMatter : Prop :=
  ∀ (c : Config) (m : Mnemonic) (f g : FetchedBytes), f.ir = c.opc m → g.ir = c.opc m →
    (2 ≤ m.length → f.opA = g.opA) → (3 ≤ m.length → f.opB = g.opB) → decode c.opc f = decode c.opc g

/-! ## The instructions -/

/-- 40_move_io_halt.md R100: LDI loads its literal into the named register; an index above 7 faults. -/
def Obligations.LdiLoadsItsLiteral : Prop :=
  (∀ (c : Config) (a imm : Byte), encode c.opc (.ldi a imm) = [c.opc .ldi, a, imm]) ∧
  (∀ (a imm : Byte) (s : State) (h : a.toNat < 8), ∃ t, exec (.ldi a imm) s = .next t ∧
    t.reg ⟨a.toNat, h⟩ = imm ∧ SameRegsBut [⟨a.toNat, h⟩] s t ∧ t.pc.toNat = (s.pc.toNat + 3) % 256 ∧
    SameMemory s t ∧ SameFlagsOut s t ∧ SameControl s t) ∧
  (∀ (a imm : Byte) (s : State), 7 < a.toNat → exec (.ldi a imm) s = .next (Latched s .registerIndex a))

/-- 40_move_io_halt.md R101: PRN emits the named register once; an index above 7 faults and emits nothing. -/
def Obligations.PrnEmitsItsRegister : Prop :=
  (∀ (c : Config) (a : Byte), encode c.opc (.prn a) = [c.opc .prn, a]) ∧
  (∀ (a : Byte) (s : State) (h : a.toNat < 8), ∃ t, exec (.prn a) s = .next t ∧
    t.out = s.out ++ [s.reg ⟨a.toNat, h⟩] ∧ SameRegs s t ∧ t.pc.toNat = (s.pc.toNat + 2) % 256 ∧
    SameMemory s t ∧ t.fl = s.fl ∧ SameControl s t) ∧
  (∀ (a : Byte) (s : State), 7 < a.toNat → exec (.prn a) s = .next (Latched s .registerIndex a))

/-- 40_move_io_halt.md R102: HLT clears the running flag and advances the pc by 1; without a latched fault the unit
is then HALTED, and has no further step. The last clause says this as 70_reset_and_hazards.md R184's `step()` on a
HALTED unit does: the unchanged state (log entry 2, DEDUCED). -/
def Obligations.HltStopsTheUnit : Prop :=
  (∀ c : Config, encode c.opc .hlt = [c.opc .hlt]) ∧
  (∀ (c : Config) (s : State), ∃ t, exec .hlt s = .next t ∧
    t.running = false ∧ t.pc.toNat = (s.pc.toNat + 1) % 256 ∧ SameRegs s t ∧ SameMemory s t ∧ SameFlagsOut s t ∧
    t.fault = s.fault ∧ t.faultInfo = s.faultInfo ∧
    (s.fault = .noFault → t.runState = .halted ∧ stepWith c t = .next t))

/-- 41_alu.md R110: MUL keeps the product modulo 256 and touches no flag; `a` is checked before `b`. -/
def Obligations.MulKeepsTheLowByte : Prop :=
  (∀ (c : Config) (a b : Byte), encode c.opc (.mul a b) = [c.opc .mul, a, b]) ∧
  (∀ (a b : Byte) (s : State) (ha : a.toNat < 8) (hb : b.toNat < 8), ∃ t, exec (.mul a b) s = .next t ∧
    (t.reg ⟨a.toNat, ha⟩).toNat = (s.reg ⟨a.toNat, ha⟩).toNat * (s.reg ⟨b.toNat, hb⟩).toNat % 256 ∧
    SameRegsBut [⟨a.toNat, ha⟩] s t ∧ t.pc.toNat = (s.pc.toNat + 3) % 256 ∧
    SameMemory s t ∧ SameFlagsOut s t ∧ SameControl s t) ∧
  (∀ (a b : Byte) (s : State), 7 < a.toNat → exec (.mul a b) s = .next (Latched s .registerIndex a)) ∧
  (∀ (a b : Byte) (s : State), a.toNat < 8 → 7 < b.toNat →
    exec (.mul a b) s = .next (Latched s .registerIndex b))

/-- 41_alu.md R111: ADD keeps the sum modulo 256 and touches no flag; `a` is checked before `b`. -/
def Obligations.AddWraps : Prop :=
  (∀ (c : Config) (a b : Byte), encode c.opc (.add a b) = [c.opc .add, a, b]) ∧
  (∀ (a b : Byte) (s : State) (ha : a.toNat < 8) (hb : b.toNat < 8), ∃ t, exec (.add a b) s = .next t ∧
    (t.reg ⟨a.toNat, ha⟩).toNat = ((s.reg ⟨a.toNat, ha⟩).toNat + (s.reg ⟨b.toNat, hb⟩).toNat) % 256 ∧
    SameRegsBut [⟨a.toNat, ha⟩] s t ∧ t.pc.toNat = (s.pc.toNat + 3) % 256 ∧
    SameMemory s t ∧ SameFlagsOut s t ∧ SameControl s t) ∧
  (∀ (a b : Byte) (s : State), 7 < a.toNat → exec (.add a b) s = .next (Latched s .registerIndex a)) ∧
  (∀ (a b : Byte) (s : State), a.toNat < 8 → 7 < b.toNat →
    exec (.add a b) s = .next (Latched s .registerIndex b))

/-- 42_stack_call.md R120: PUSH decrements SP, then stores the register read AFTER the decrement (so register 7
pushes the new SP) at the new SP; an index above 7 faults before the decrement. -/
def Obligations.PushStoresBelowTheStack : Prop :=
  (∀ (c : Config) (a : Byte), encode c.opc (.push a) = [c.opc .push, a]) ∧
  (∀ (a : Byte) (s : State) (h : a.toNat < 8), ∃ t, exec (.push a) s = .next t ∧
    t.sp.toNat = (s.sp.toNat + 255) % 256 ∧ t.sp = sub8 s.sp 1#8 ∧
    t.memRead (sub8 s.sp 1#8) = (if a.toNat = 7 then sub8 s.sp 1#8 else s.reg ⟨a.toNat, h⟩) ∧
    SameMemoryBut (sub8 s.sp 1#8) s t ∧ SameRegsBut [7] s t ∧ t.pc.toNat = (s.pc.toNat + 2) % 256 ∧
    SameFlagsOut s t ∧ SameControl s t) ∧
  (∀ (a : Byte) (s : State), 7 < a.toNat → exec (.push a) s = .next (Latched s .registerIndex a))

/-- 42_stack_call.md R121: POP loads the byte at the old SP, then increments SP (so POP into register 7 leaves the
popped byte plus 1); memory is not changed. -/
def Obligations.PopLoadsFromTheStack : Prop :=
  (∀ (c : Config) (a : Byte), encode c.opc (.pop a) = [c.opc .pop, a]) ∧
  (∀ (a : Byte) (s : State) (h : a.toNat < 8), ∃ t, exec (.pop a) s = .next t ∧
    (a.toNat ≠ 7 → t.reg ⟨a.toNat, h⟩ = s.memRead s.sp) ∧
    t.sp.toNat = ((if a.toNat = 7 then s.memRead s.sp else s.sp).toNat + 1) % 256 ∧
    SameRegsBut [⟨a.toNat, h⟩, 7] s t ∧ t.pc.toNat = (s.pc.toNat + 2) % 256 ∧
    SameMemory s t ∧ SameFlagsOut s t ∧ SameControl s t) ∧
  (∀ (a : Byte) (s : State), 7 < a.toNat → exec (.pop a) s = .next (Latched s .registerIndex a))

/-- 42_stack_call.md R122: CALL decrements SP, stores `pc + 2` at the new SP and jumps to the register read AFTER the
decrement (so register 7 jumps to the new SP); an index above 7 faults before the decrement. -/
def Obligations.CallStoresTheReturnAddress : Prop :=
  (∀ (c : Config) (a : Byte), encode c.opc (.call a) = [c.opc .call, a]) ∧
  (∀ (a : Byte) (s : State) (h : a.toNat < 8), ∃ t, exec (.call a) s = .next t ∧
    t.sp.toNat = (s.sp.toNat + 255) % 256 ∧ t.sp = sub8 s.sp 1#8 ∧
    (t.memRead (sub8 s.sp 1#8)).toNat = (s.pc.toNat + 2) % 256 ∧
    t.pc = (if a.toNat = 7 then sub8 s.sp 1#8 else s.reg ⟨a.toNat, h⟩) ∧
    SameMemoryBut (sub8 s.sp 1#8) s t ∧ SameRegsBut [7] s t ∧ SameFlagsOut s t ∧ SameControl s t) ∧
  (∀ (a : Byte) (s : State), 7 < a.toNat → exec (.call a) s = .next (Latched s .registerIndex a))

/-- 42_stack_call.md R123: RET sets the pc to the byte at the old SP and increments SP; it restores nothing else. -/
def Obligations.RetPopsThePc : Prop :=
  (∀ c : Config, encode c.opc .ret = [c.opc .ret]) ∧
  (∀ s : State, ∃ t, exec .ret s = .next t ∧
    t.pc = s.memRead s.sp ∧ t.sp.toNat = (s.sp.toNat + 1) % 256 ∧ SameRegsBut [7] s t ∧
    SameMemory s t ∧ SameFlagsOut s t ∧ SameControl s t)

/-- 43_compare_branch.md R140: CMP overwrites the whole flags byte with the one bit of the unsigned comparison (the
spec's decision D6), first operand against second. -/
def Obligations.CmpSetsOneFlag : Prop :=
  (∀ (c : Config) (a b : Byte), encode c.opc (.cmp a b) = [c.opc .cmp, a, b]) ∧
  (∀ (a b : Byte) (s : State) (ha : a.toNat < 8) (hb : b.toNat < 8), ∃ t, exec (.cmp a b) s = .next t ∧
    t.fl = (if (s.reg ⟨a.toNat, ha⟩).toNat = (s.reg ⟨b.toNat, hb⟩).toNat then 0b00000001
      else if (s.reg ⟨a.toNat, ha⟩).toNat > (s.reg ⟨b.toNat, hb⟩).toNat then 0b00000010
      else 0b00000100) ∧
    SameRegs s t ∧ t.pc.toNat = (s.pc.toNat + 3) % 256 ∧ SameMemory s t ∧ t.out = s.out ∧ SameControl s t) ∧
  (∀ (a b : Byte) (s : State), 7 < a.toNat → exec (.cmp a b) s = .next (Latched s .registerIndex a)) ∧
  (∀ (a b : Byte) (s : State), a.toNat < 8 → 7 < b.toNat →
    exec (.cmp a b) s = .next (Latched s .registerIndex b))

/-- 43_compare_branch.md R141: JMP writes the pc and nothing else; an index above 7 faults. -/
def Obligations.JmpLoadsThePc : Prop :=
  (∀ (c : Config) (a : Byte), encode c.opc (.jmp a) = [c.opc .jmp, a]) ∧
  (∀ (a : Byte) (s : State) (h : a.toNat < 8), ∃ t, exec (.jmp a) s = .next t ∧
    t.pc = s.reg ⟨a.toNat, h⟩ ∧ SameRegs s t ∧ SameMemory s t ∧ SameFlagsOut s t ∧ SameControl s t) ∧
  (∀ (a : Byte) (s : State), 7 < a.toNat → exec (.jmp a) s = .next (Latched s .registerIndex a))

/-- 43_compare_branch.md R142: JEQ is taken exactly when bit E is set; not taken, any operand byte is ignored (the
spec's decision D18). -/
def Obligations.JeqBranchesOnEqual : Prop :=
  (∀ (c : Config) (a : Byte), encode c.opc (.jeq a) = [c.opc .jeq, a]) ∧
  (∀ (a : Byte) (s : State) (h : a.toNat < 8), s.fl.toNat % 2 = 1 → ∃ t, exec (.jeq a) s = .next t ∧
    t.pc = s.reg ⟨a.toNat, h⟩ ∧ SameRegs s t ∧ SameMemory s t ∧ SameFlagsOut s t ∧ SameControl s t) ∧
  (∀ (a : Byte) (s : State), s.fl.toNat % 2 = 0 → ∃ t, exec (.jeq a) s = .next t ∧
    t.pc.toNat = (s.pc.toNat + 2) % 256 ∧ SameRegs s t ∧ SameMemory s t ∧ SameFlagsOut s t ∧ SameControl s t) ∧
  (∀ (a : Byte) (s : State), 7 < a.toNat → s.fl.toNat % 2 = 1 →
    exec (.jeq a) s = .next (Latched s .registerIndex a))

/-- 43_compare_branch.md R143: JNE is taken exactly when bit E is clear; not taken, any operand byte is ignored (the
spec's decision D18). -/
def Obligations.JneBranchesOnNotEqual : Prop :=
  (∀ (c : Config) (a : Byte), encode c.opc (.jne a) = [c.opc .jne, a]) ∧
  (∀ (a : Byte) (s : State) (h : a.toNat < 8), s.fl.toNat % 2 = 0 → ∃ t, exec (.jne a) s = .next t ∧
    t.pc = s.reg ⟨a.toNat, h⟩ ∧ SameRegs s t ∧ SameMemory s t ∧ SameFlagsOut s t ∧ SameControl s t) ∧
  (∀ (a : Byte) (s : State), s.fl.toNat % 2 = 1 → ∃ t, exec (.jne a) s = .next t ∧
    t.pc.toNat = (s.pc.toNat + 2) % 256 ∧ SameRegs s t ∧ SameMemory s t ∧ SameFlagsOut s t ∧ SameControl s t) ∧
  (∀ (a : Byte) (s : State), 7 < a.toNat → s.fl.toNat % 2 = 0 →
    exec (.jne a) s = .next (Latched s .registerIndex a))

/-- The adders and the multiplier of 00_scope.md's primitive table and 41_alu.md R112: results modulo 256. -/
def Obligations.ArithmeticWrapsModulo256 : Prop :=
  ∀ a b : Byte,
    (add8 a b).toNat = (a.toNat + b.toNat) % 256 ∧
    ((sub8 a b).toNat : Int) = ((a.toNat : Int) - (b.toNat : Int)) % 256 ∧
    (mul8 a b).toNat = a.toNat * b.toNat % 256

/-! ## Faults -/

/-- 60_exceptions.md R162 (the spec's decision D4): an instruction takes `RegisterIndex` exactly when an operand byte
of the rule's table is above 7, and then only the latch changes. -/
def Obligations.CheckedOperandsDecideTheFault : Prop :=
  ∀ (i : Instr) (s : State),
    match badOperand s.fl i with
    | some b => exec i s = .next (Latched s .registerIndex b)
    | none => ∃ t, exec i s = .next t ∧ t.fault = s.fault ∧ t.faultInfo = s.faultInfo

/-- 60_exceptions.md R163 (the spec's decision D10): at most one fault a step, decode before `opA` before `opB`. -/
def Obligations.FirstFailingCheckIsReported : Prop :=
  ∀ (c : Config) (s : State), s.runState = .running →
    ∃ t, stepWith c s = .next t ∧ (t.fault, t.faultInfo) = expectedLatch c s

/-- 60_exceptions.md R164 (the spec's decision D9): a step that raises writes the latch and nothing else. -/
def Obligations.FaultingStepIsPrecise : Prop :=
  ∀ (c : Config) (s t : State), s.fault = .noFault → stepWith c s = .next t → t.fault ≠ .noFault →
    t = Latched s t.fault t.faultInfo ∧ t.running = true ∧ t.pc = s.pc ∧ SameRegs s t ∧ SameMemory s t ∧
    SameFlagsOut s t

/-- 60_exceptions.md R162's last sentence: a program whose register operands are all 0 to 7 never raises
`RegisterIndex`. -/
def Obligations.WellFormedInstructionsNeverFault : Prop :=
  ∀ (i : Instr) (s : State), i.WellFormed →
    ∃ t, exec i s = .next t ∧ t.fault = s.fault ∧ t.faultInfo = s.faultInfo

/-- Every step of every state, under every configuration, answers a next state: the model never stops on a fault
or a refusal of its own. That a stopped unit's step answers one (the unchanged state) is 70_reset_and_hazards.md R184
and the model's reading in log entry 2 (DEDUCED); that a raising step answers one is the model's reading of
60_exceptions.md R164 in log entry 3 (DEDUCED). -/
def Obligations.StepAlwaysAnswersNext : Prop :=
  ∀ (c : Config) (s : State), ∃ t, stepWith c s = .next t

/-- 70_reset_and_hazards.md R182 (the spec's decision D8): steps, `load` and `write` leave HALTED and FAULTED as
they are; reset leaves both. -/
def Obligations.OnlyResetLeavesAStop : Prop :=
  (∀ (c : Config) (s t : State), s.runState ≠ .running →
    (stepWith c s = .next t ∨ (∃ bytes, hostLoad bytes s = .next t) ∨ ∃ a v, hostWrite a v s = .next t) →
    t.runState = s.runState ∧ t.fault = s.fault ∧ t.faultInfo = s.faultInfo ∧ t.running = s.running ∧ t.pc = s.pc) ∧
  (∀ (c : Config) (s : State), (hostReset c s).runState = .running)

/-! ## Frames over all instructions -/

/-- 10_state.md R25: only CMP writes `fl`, overwriting all of it; only JEQ and JNE read it, and bit 0 only. With
another flags byte, CMP answers the same state and every other instruction the same state but for that byte. -/
def Obligations.FlagsAreSeenOnlyThroughBranches : Prop :=
  ∀ (i : Instr) (s : State) (f : Byte),
    (i.mnemonic ≠ .jeq ∧ i.mnemonic ≠ .jne) ∨ f.toNat % 2 = s.fl.toNat % 2 →
    ∃ t, exec i s = .next t ∧
      if i.mnemonic = .cmp ∧ badOperand s.fl i = none then exec i { s with fl := f } = .next t
      else t.fl = s.fl ∧ exec i { s with fl := f } = .next { t with fl := f }

/-- 10_state.md R37: HLT alone clears `running`, reset alone sets it, and no instruction reads it. -/
def Obligations.OnlyHltClearsRunning : Prop :=
  (∀ c : Config, (State.resetWith c.spReset).running = true) ∧
  (∀ (i : Instr) (s : State) (r : Bool), ∃ t, exec i s = .next t ∧
    t.running = (if i = .hlt then false else s.running) ∧
    exec i { s with running := r } = .next { t with running := if i = .hlt then false else r }) ∧
  (∀ (c : Config) (s t : State), stepWith c s = .next t → t.running ≠ s.running →
    decode c.opc (fetch s) = .instr .hlt ∧ s.running = true ∧ t.running = false) ∧
  (∀ (s t : State), ((∃ bytes, hostLoad bytes s = .next t) ∨ ∃ a v, hostWrite a v s = .next t) →
    t.running = s.running)

/-- 20_memory.md section 2: PUSH and CALL store one byte, at the new stack pointer, and no other instruction stores.
For every instruction, every byte outside the address stored to reads as before. -/
def Obligations.OnlyPushAndCallStore : Prop :=
  ∀ (i : Instr) (s : State), ∃ t, exec i s = .next t ∧
    match storeAddress s i with
    | some w => SameMemoryBut w s t
    | none => SameMemory s t

/-- 10_state.md section 7: every instruction appends to the output exactly what `emitted` names: PRN its register,
every other nothing. -/
def Obligations.OnlyPrnEmits : Prop :=
  ∀ (i : Instr) (s : State), ∃ t, exec i s = .next t ∧ t.out = s.out ++ emitted s i

/-- 10_state.md R31: an instruction writes no register outside the table's last column, and the value of a register
outside its middle column has no effect on what the instruction does. -/
def Obligations.RegistersReadAndWritten : Prop :=
  (∀ (i : Instr) (s : State), ∃ t, exec i s = .next t ∧ SameRegsBut (writtenRegs i) s t) ∧
  (∀ (i : Instr) (s : State) (k : Fin 8) (v : Byte), k ∉ readRegs s.fl i →
    ∃ t u, exec i s = .next t ∧ exec i (s.setReg k v) = .next u ∧
      u.mem = t.mem ∧ u.pc = t.pc ∧ SameFlagsOut t u ∧ SameControl t u ∧ SameRegsBut [k] t u ∧
      u.reg k = if k ∈ writtenRegs i ∧ badOperand s.fl i = none then t.reg k else v)

/-- 10_state.md R35: the pc after every instruction is the table's; a step that raises leaves it. -/
def Obligations.PcAfterEveryInstruction : Prop :=
  (∀ (i : Instr) (s : State), ∃ t, exec i s = .next t ∧ t.pc = pcAfter s i) ∧
  (∀ (c : Config) (s t : State), s.fault = .noFault → stepWith c s = .next t → t.fault ≠ .noFault → t.pc = s.pc)

/-- 10_state.md sections 6 and 7: no instruction reads the running flag, the fault latch, its information byte or
what was printed: with other values there it computes the same memory, registers, pc, flags and emitted bytes. -/
def Obligations.ControlAndOutputAreNotRead : Prop :=
  ∀ (i : Instr) (s : State) (r : Bool) (f : FaultLatch) (b : Byte) (o : List Byte),
    ∃ t u e, exec i s = .next t ∧
      exec i { s with running := r, fault := f, faultInfo := b, out := o } = .next u ∧
      u.mem = t.mem ∧ u.x = t.x ∧ u.pc = t.pc ∧ u.fl = t.fl ∧ t.out = s.out ++ e ∧ u.out = o ++ e

/-! ## Reset and the invariant -/

/-- 10_state.md R45, 70_reset_and_hazards.md R180: every piece of state after reset, from whatever state. -/
def Obligations.ResetLeavesTheStatedValues : Prop :=
  (∀ (c : Config) (s : State),
    (∀ a, (hostReset c s).memRead a = 0) ∧ (∀ k : Fin 8, k ≠ 7 → (hostReset c s).reg k = 0) ∧
    (hostReset c s).sp = c.spReset ∧ (hostReset c s).pc = 0 ∧ (hostReset c s).fl = 0 ∧
    (hostReset c s).running = true ∧ (hostReset c s).fault = .noFault ∧ (hostReset c s).faultInfo = 0 ∧
    (hostReset c s).out = [] ∧ (hostReset c s).runState = .running) ∧
  (∀ s : State, State.reset = hostReset defaultConfig s) ∧ State.reset.sp = 0

/-- 70_reset_and_hazards.md sections 1 and 4: with nothing loaded the first step raises `IllegalInstruction(0x00)`, under
every opcode map that gives no mnemonic the byte 0, the default one among them (log entry 1). -/
def Obligations.FirstStepAfterResetIsIllegal : Prop :=
  (∀ c : Config, (∀ m, c.opc m ≠ 0) →
    stepWith c (State.resetWith c.spReset) = .next (Latched (State.resetWith c.spReset) .illegalInstruction 0)) ∧
  step State.reset = .next (Latched State.reset .illegalInstruction 0)

/-- The invariant holds at reset. -/
def Obligations.ResetMeetsInv : Prop := ∀ c : Config, MachineInv (State.resetWith c.spReset)

/-- Every step keeps the invariant: canonical memory, legal flags (10_state.md R36), a FAULTED unit still has its
running flag (R39), a clear information byte without a fault (R38). -/
def Obligations.StepKeepsInv : Prop :=
  (∀ s t : State, MachineInv s → step s = .next t → MachineInv t) ∧
  (∀ (c : Config) (s t : State), MachineInv s → stepWith c s = .next t → MachineInv t)

/-- Every act of the host keeps the invariant. -/
def Obligations.HostActsKeepInv : Prop :=
  (∀ (s t : State) (bytes : List Nat), MachineInv s → hostLoad bytes s = .next t → MachineInv t) ∧
  (∀ (s t : State) (a v : Nat), MachineInv s → hostWrite a v s = .next t → MachineInv t) ∧
  (∀ (c : Config) (s : State), MachineInv (hostReset c s))

/-- Every state reached from reset, by steps and by the host's acts between them in any order, meets the invariant,
and its run state is FAULTED only with the running flag still set. `Reachable` has the host act only between steps,
which is log entry 6 (DESIGN CHOICE, after 70_reset_and_hazards.md R190). -/
def Obligations.ReachableStatesMeetInv : Prop :=
  ∀ (c : Config) (s : State), Reachable c s →
    MachineInv s ∧ (s.runState = .faulted → s.running = true) ∧ (s.runState = .halted → s.faultInfo = 0)

/-- The canonical form is canonical: two memories of that form that read alike are the same data. -/
def Obligations.CanonicalMemoriesAreEqual : Prop :=
  ∀ m n : Memory, m.wf → n.wf → (∀ a, m.read a = n.read a) → m = n

/-! ## The host -/

/-- 70_reset_and_hazards.md R186: `load` copies its bytes from address 0 upward and changes nothing else. -/
def Obligations.LoadCopiesTheBytes : Prop :=
  ∀ (bytes : List Nat) (s : State), bytes.length ≤ 256 → (∀ v ∈ bytes, v ≤ 255) →
    ∃ t, hostLoad bytes s = .next t ∧
      (∀ a : Byte, (t.memRead a).toNat = (bytes[a.toNat]?).getD (s.memRead a).toNat) ∧
      SameRegs s t ∧ t.pc = s.pc ∧ SameFlagsOut s t ∧ SameControl s t

/-- 70_reset_and_hazards.md R187, R188 (the spec's decision D16): `read` returns the cell and has no effect on any
state; `write` sets one cell and changes nothing else. -/
def Obligations.HostReadAndWriteReachOneCell : Prop :=
  ∀ (a v : Byte) (s : State),
    hostRead a.toNat s = .value (s.memRead a) ∧
    ∃ t, hostWrite a.toNat v.toNat s = .next t ∧ hostRead a.toNat t = .value v ∧ SameMemoryBut a s t ∧
      SameRegs s t ∧ t.pc = s.pc ∧ SameFlagsOut s t ∧ SameControl s t

/-- 70_reset_and_hazards.md R189 (the spec's decision D16): a value or an address above 255 and a `load` of more than
256 bytes are refused. -/
def Obligations.HostDataTooWideIsRefused : Prop :=
  ∀ s : State,
    (∀ bytes : List Nat, 256 < bytes.length ∨ (∃ v ∈ bytes, 255 < v) → ∃ r, hostLoad bytes s = .refused r) ∧
    (∀ a v : Nat, 255 < a ∨ 255 < v → ∃ r, hostWrite a v s = .refused r) ∧
    (∀ a : Nat, 255 < a → ∃ r, hostRead a s = .refused r)

/-- 10_state.md section 6, the table of run states, and that HALTED and FAULTED cannot step. The section says only
that the unit cannot step; that a step there answers the unchanged state, the last clause, is
70_reset_and_hazards.md R184's `step()` (log entry 2, DEDUCED). -/
def Obligations.RunStateOfLatchAndFlag : Prop :=
  ∀ (c : Config) (s : State),
    (s.runState = .running ↔ s.fault.code = 0 ∧ s.running = true) ∧
    (s.runState = .halted ↔ s.fault.code = 0 ∧ s.running = false) ∧
    (s.runState = .faulted ↔ s.fault.code = 1 ∨ s.fault.code = 2) ∧ s.fault.code ≠ 3 ∧
    (s.runState ≠ .running → stepWith c s = .next s)

/-- 30_encoding.md R85, 70_reset_and_hazards.md R185: `run()` repeats the step while RUNNING, returns at once from
HALTED and FAULTED with what that state is, and may never return. -/
def Obligations.RunRepeatsTheStep : Prop :=
  (∀ (c : Config) (s : State) (e : RunEnd), s.runState = .running →
    (RunReturns c s e ↔ ∃ t, stepWith c s = .next t ∧ RunReturns c t e)) ∧
  (∀ (c : Config) (s : State) (e : RunEnd), s.runState = .halted → (RunReturns c s e ↔ e = .success s)) ∧
  (∀ (c : Config) (s : State) (e : RunEnd), s.runState = .faulted →
    (RunReturns c s e ↔ ∃ err, s.surfacedError = some err ∧ e = .failure s err)) ∧
  (∃ (c : Config) (s : State), s.runState = .running ∧ ∀ e, ¬ RunReturns c s e)

/-- 70_reset_and_hazards.md section 6: a run ends in at most one way. -/
def Obligations.RunHasOneEnd : Prop :=
  ∀ (c : Config) (s : State) (e f : RunEnd), RunReturns c s e → RunReturns c s f → e = f

/-- 70_reset_and_hazards.md section 6: a run that returns was ended by the HLT or by the fault of the last state it
was RUNNING in; a failed run leaves that state but for the latch. -/
def Obligations.RunIsEndedByHltOrFault : Prop :=
  ∀ (c : Config) (s : State) (e : RunEnd), s.runState = .running → RunReturns c s e →
    ∃ n u f, runFor c n s = .next u ∧ u.runState = .running ∧ stepWith c u = .next f ∧
      ((e = .success f ∧ decode c.opc (fetch u) = .instr .hlt ∧ f = { u with running := false, pc := pcPlus u 1 }) ∨
       (∃ err, e = .failure f err ∧ f.surfacedError = some err ∧ f.fault ≠ .noFault ∧
         f = Latched u f.fault f.faultInfo))

/-! ## Laws of the stack, the flags and the fetch -/

/-- 42_stack_call.md, laws of the stack: PUSH followed by POP, both among registers 0 to 6, moves the value and restores
SP, when the push does not overwrite the POP. -/
def Obligations.PushThenPopRestores : Prop :=
  ∀ (c : Config) (a b : Byte) (s : State) (ha : a.toNat < 7) (hb : b.toNat < 7), s.runState = .running →
    decode c.opc (fetch s) = .instr (.push a) →
    s.memRead (add8 s.pc 2#8) = c.opc .pop → s.memRead (add8 s.pc 3#8) = b →
    sub8 s.sp 1#8 ≠ add8 s.pc 2#8 → sub8 s.sp 1#8 ≠ add8 s.pc 3#8 →
    ∃ t u, stepWith c s = .next t ∧ stepWith c t = .next u ∧
      u.reg ⟨b.toNat, by omega⟩ = s.reg ⟨a.toNat, by omega⟩ ∧ u.sp = s.sp ∧ u.pc.toNat = (s.pc.toNat + 4) % 256

/-- 42_stack_call.md, laws of the stack: when the stack pointer is back at CALL's and the cell there is unchanged, RET
resumes at the CALL's address plus 2 with the stack pointer of before the CALL. -/
def Obligations.CallThenReturnResumes : Prop :=
  ∀ (a : Byte) (s t u : State), a.toNat < 8 → exec (.call a) s = .next t → u.sp = t.sp →
    u.memRead u.sp = t.memRead t.sp →
    ∃ v, exec .ret u = .next v ∧ v.pc.toNat = (s.pc.toNat + 2) % 256 ∧ v.sp = s.sp

/-- 43_compare_branch.md's table of outcomes: after any CMP exactly one flag bit is set; a JEQ that follows branches
exactly when the registers are equal and a JNE exactly when they are not. -/
def Obligations.CompareThenBranch : Prop :=
  ∀ (a b d : Byte) (s : State) (ha : a.toNat < 8) (hb : b.toNat < 8) (hd : d.toNat < 8),
    ∃ t u v, exec (.cmp a b) s = .next t ∧ exec (.jeq d) t = .next u ∧ exec (.jne d) t = .next v ∧
      ([t.fl.getLsbD 0, t.fl.getLsbD 1, t.fl.getLsbD 2].count true = 1) ∧
      u.pc = (if s.reg ⟨a.toNat, ha⟩ = s.reg ⟨b.toNat, hb⟩ then s.reg ⟨d.toNat, hd⟩ else pcPlus s 5) ∧
      v.pc = (if s.reg ⟨a.toNat, ha⟩ = s.reg ⟨b.toNat, hb⟩ then pcPlus s 5 else s.reg ⟨d.toNat, hd⟩)

/-- 20_memory.md section 4: a byte stored by PUSH or CALL is what a fetch of the very next step reads at that address,
at whatever pc; every other fetched byte is the old one. -/
def Obligations.StoredByteIsFetchedNext : Prop :=
  ∀ (a p : Byte) (s : State) (h : a.toNat < 8), ∃ t u, exec (.push a) s = .next t ∧ exec (.call a) s = .next u ∧
    (fetch { t with pc := p }).ir = (if p = sub8 s.sp 1#8 then
      (if a.toNat = 7 then sub8 s.sp 1#8 else s.reg ⟨a.toNat, h⟩) else s.memRead p) ∧
    (fetch { u with pc := p }).ir = (if p = sub8 s.sp 1#8 then pcPlus s 2 else s.memRead p)

/-- The source's property under 40_move_io_halt.md R100: `LDI r, v` followed by HLT, run from any RUNNING state at any
address, returns with success, `v` in the register and the running flag clear. -/
def Obligations.LdiThenHltLeavesTheValue : Prop :=
  ∀ (c : Config) (a imm : Byte) (s : State) (ha : a.toNat < 8), s.runState = .running →
    decode c.opc (fetch s) = .instr (.ldi a imm) → s.memRead (add8 s.pc 3#8) = c.opc .hlt →
    ∃ f, RunReturns c s (.success f) ∧ f.reg ⟨a.toNat, ha⟩ = imm ∧ f.running = false ∧
      f.pc.toNat = (s.pc.toNat + 4) % 256 ∧ SameRegsBut [⟨a.toNat, ha⟩] s f ∧ SameMemory s f ∧ SameFlagsOut s f

/-- The source's property under 41_alu.md R111: ADD or MUL followed by PRN of the same register emits the arithmetic
result modulo 256 exactly once. -/
def Obligations.AddOrMulThenPrnEmitsTheResult : Prop :=
  ∀ (c : Config) (a b : Byte) (s : State) (ha : a.toNat < 8) (hb : b.toNat < 8), s.runState = .running →
    s.memRead (add8 s.pc 3#8) = c.opc .prn → s.memRead (add8 s.pc 4#8) = a →
    (decode c.opc (fetch s) = .instr (.add a b) →
      ∃ t u, stepWith c s = .next t ∧ stepWith c t = .next u ∧
        u.out = s.out ++ [BitVec.ofNat 8 (((s.reg ⟨a.toNat, ha⟩).toNat + (s.reg ⟨b.toNat, hb⟩).toNat) % 256)]) ∧
    (decode c.opc (fetch s) = .instr (.mul a b) →
      ∃ t u, stepWith c s = .next t ∧ stepWith c t = .next u ∧
        u.out = s.out ++ [BitVec.ofNat 8 ((s.reg ⟨a.toNat, ha⟩).toNat * (s.reg ⟨b.toNat, hb⟩).toNat % 256)])
end

