-- ==== Sys2Proof/Laws/Alu.lean ====
section
/-! SUPPORT. The values of the adders, the multiplier and the comparison as natural numbers (spec/00_scope.md R7,
spec/43_compare_branch.md R140). -/

namespace Sys2Proof.Machine

theorem add8_toNat (a b : Byte) : (add8 a b).toNat = (a.toNat + b.toNat) % 256 := by
  simp [add8, BitVec.toNat_add]

theorem sub8_toNat (a b : Byte) : (sub8 a b).toNat = (a.toNat + 256 - b.toNat) % 256 := by
  have := b.isLt
  simp [sub8, BitVec.toNat_sub]
  omega

theorem mul8_toNat (a b : Byte) : (mul8 a b).toNat = a.toNat * b.toNat % 256 := by
  simp [mul8, BitVec.toNat_mul]

/-- Decrement and increment of the stack pointer undo each other modulo 256. -/
@[simp] theorem add8_sub8 (a b : Byte) : add8 (sub8 a b) b = a := by
  simp [add8, sub8]

/-- The comparison answers exactly one flag bit (43_compare_branch.md R140). -/
theorem cmp8_cases (a b : Byte) :
    (a = b ∧ cmp8 a b = 1) ∨ (b.toNat < a.toNat ∧ cmp8 a b = 2) ∨ (a.toNat < b.toNat ∧ cmp8 a b = 4) := by
  unfold cmp8
  split
  · exact .inl ⟨‹_›, rfl⟩
  · rename_i hne
    have : a.toNat ≠ b.toNat := fun h => hne (BitVec.eq_of_toNat_eq h)
    split
    · exact .inr (.inl ⟨‹_›, rfl⟩)
    · exact .inr (.inr ⟨by omega, rfl⟩)

/-- Bit E as the parity of the flags byte. -/
theorem flagE_eq (fl : Byte) : flagE fl = decide (fl.toNat % 2 = 1) := by
  simp [flagE, BitVec.getLsbD, Nat.testBit_zero]

end Sys2Proof.Machine
end

