-- ==== Sys2Proof/Laws/Decode.lean ====
section
/-! SUPPORT. The laws of decoding: what the opcode look-up answers, and what `decode` does with it. -/

namespace Sys2Proof

/-- The list of mnemonics is complete. -/
theorem Mnemonic.mem_all (m : Mnemonic) : m ∈ Mnemonic.all := by cases m <;> decide

/-- The look-up answers only a mnemonic whose opcode byte it was given. -/
theorem opc_of_decodeOpcode {opc : OpcodeMap} {b : Byte} {m : Mnemonic} (h : decodeOpcode opc b = some m) :
    opc m = b := by
  simpa using List.find?_some h

/-- The look-up answers nothing exactly for a byte no mnemonic has. -/
theorem decodeOpcode_eq_none {opc : OpcodeMap} {b : Byte} :
    decodeOpcode opc b = none ↔ ∀ m, opc m ≠ b := by
  simp [decodeOpcode, List.find?_eq_none, Mnemonic.mem_all]

/-- Under an injective map the opcode byte of a mnemonic finds it. -/
theorem decodeOpcode_opc {opc : OpcodeMap} (hinj : Function.Injective opc) (m : Mnemonic) :
    decodeOpcode opc (opc m) = some m := by
  cases h : decodeOpcode opc (opc m) with
  | none => exact absurd rfl (decodeOpcode_eq_none.mp h m)
  | some k => rw [hinj (opc_of_decodeOpcode h)]

/-- What `decode` answers, once: an instruction of the mnemonic found, or the rejection of the byte. -/
theorem decode_cases (opc : OpcodeMap) (f : FetchedBytes) :
    (∃ m, decodeOpcode opc f.ir = some m ∧ decode opc f = .instr (m.instr f.opA f.opB)) ∨
    (decodeOpcode opc f.ir = none ∧ decode opc f = .illegalInstruction f.ir) := by
  unfold decode
  cases decodeOpcode opc f.ir with
  | none => exact .inr ⟨rfl, rfl⟩
  | some m => exact .inl ⟨m, rfl, rfl⟩

/-- The instruction built for a mnemonic has that mnemonic. -/
@[simp] theorem Mnemonic.instr_mnemonic (m : Mnemonic) (a b : Byte) : (m.instr a b).mnemonic = m := by
  cases m <;> rfl

end Sys2Proof
end

