-- ==== Sys2Proof/Laws/State.lean ====
section
/-! SUPPORT. One lemma per field of State and update, true by rfl, so that no proof unfolds a record update; then
what a register reads after each update. -/

namespace Sys2Proof.Machine

variable (s : State)

@[simp] theorem State.memWrite_mem (a v : Byte) : (s.memWrite a v).mem = s.mem.write a v := rfl
@[simp] theorem State.memWrite_x (a v : Byte) : (s.memWrite a v).x = s.x := rfl
@[simp] theorem State.memWrite_pc (a v : Byte) : (s.memWrite a v).pc = s.pc := rfl
@[simp] theorem State.memWrite_fl (a v : Byte) : (s.memWrite a v).fl = s.fl := rfl
@[simp] theorem State.memWrite_running (a v : Byte) : (s.memWrite a v).running = s.running := rfl
@[simp] theorem State.memWrite_fault (a v : Byte) : (s.memWrite a v).fault = s.fault := rfl
@[simp] theorem State.memWrite_faultInfo (a v : Byte) : (s.memWrite a v).faultInfo = s.faultInfo := rfl
@[simp] theorem State.memWrite_out (a v : Byte) : (s.memWrite a v).out = s.out := rfl

@[simp] theorem State.setReg_mem (i : Fin 8) (v : Byte) : (s.setReg i v).mem = s.mem := rfl
@[simp] theorem State.setReg_x (i : Fin 8) (v : Byte) : (s.setReg i v).x = s.x.set i v := rfl
@[simp] theorem State.setReg_pc (i : Fin 8) (v : Byte) : (s.setReg i v).pc = s.pc := rfl
@[simp] theorem State.setReg_fl (i : Fin 8) (v : Byte) : (s.setReg i v).fl = s.fl := rfl
@[simp] theorem State.setReg_running (i : Fin 8) (v : Byte) : (s.setReg i v).running = s.running := rfl
@[simp] theorem State.setReg_fault (i : Fin 8) (v : Byte) : (s.setReg i v).fault = s.fault := rfl
@[simp] theorem State.setReg_faultInfo (i : Fin 8) (v : Byte) : (s.setReg i v).faultInfo = s.faultInfo := rfl
@[simp] theorem State.setReg_out (i : Fin 8) (v : Byte) : (s.setReg i v).out = s.out := rfl

@[simp] theorem State.decSp_mem : (s.decSp).mem = s.mem := rfl
@[simp] theorem State.decSp_x : (s.decSp).x = s.x.set spIndex (sub8 s.sp 1#8) := rfl
@[simp] theorem State.decSp_pc : (s.decSp).pc = s.pc := rfl
@[simp] theorem State.decSp_fl : (s.decSp).fl = s.fl := rfl
@[simp] theorem State.decSp_running : (s.decSp).running = s.running := rfl
@[simp] theorem State.decSp_fault : (s.decSp).fault = s.fault := rfl
@[simp] theorem State.decSp_faultInfo : (s.decSp).faultInfo = s.faultInfo := rfl
@[simp] theorem State.decSp_out : (s.decSp).out = s.out := rfl

@[simp] theorem State.incSp_mem : (s.incSp).mem = s.mem := rfl
@[simp] theorem State.incSp_x : (s.incSp).x = s.x.set spIndex (add8 s.sp 1#8) := rfl
@[simp] theorem State.incSp_pc : (s.incSp).pc = s.pc := rfl
@[simp] theorem State.incSp_fl : (s.incSp).fl = s.fl := rfl
@[simp] theorem State.incSp_running : (s.incSp).running = s.running := rfl
@[simp] theorem State.incSp_fault : (s.incSp).fault = s.fault := rfl
@[simp] theorem State.incSp_faultInfo : (s.incSp).faultInfo = s.faultInfo := rfl
@[simp] theorem State.incSp_out : (s.incSp).out = s.out := rfl

@[simp] theorem State.setPc_mem (p : Byte) : (s.setPc p).mem = s.mem := rfl
@[simp] theorem State.setPc_x (p : Byte) : (s.setPc p).x = s.x := rfl
@[simp] theorem State.setPc_pc (p : Byte) : (s.setPc p).pc = p := rfl
@[simp] theorem State.setPc_fl (p : Byte) : (s.setPc p).fl = s.fl := rfl
@[simp] theorem State.setPc_running (p : Byte) : (s.setPc p).running = s.running := rfl
@[simp] theorem State.setPc_fault (p : Byte) : (s.setPc p).fault = s.fault := rfl
@[simp] theorem State.setPc_faultInfo (p : Byte) : (s.setPc p).faultInfo = s.faultInfo := rfl
@[simp] theorem State.setPc_out (p : Byte) : (s.setPc p).out = s.out := rfl

@[simp] theorem State.advance_mem (n : Byte) : (s.advance n).mem = s.mem := rfl
@[simp] theorem State.advance_x (n : Byte) : (s.advance n).x = s.x := rfl
@[simp] theorem State.advance_pc (n : Byte) : (s.advance n).pc = add8 s.pc n := rfl
@[simp] theorem State.advance_fl (n : Byte) : (s.advance n).fl = s.fl := rfl
@[simp] theorem State.advance_running (n : Byte) : (s.advance n).running = s.running := rfl
@[simp] theorem State.advance_fault (n : Byte) : (s.advance n).fault = s.fault := rfl
@[simp] theorem State.advance_faultInfo (n : Byte) : (s.advance n).faultInfo = s.faultInfo := rfl
@[simp] theorem State.advance_out (n : Byte) : (s.advance n).out = s.out := rfl

@[simp] theorem State.setFl_mem (v : Byte) : (s.setFl v).mem = s.mem := rfl
@[simp] theorem State.setFl_x (v : Byte) : (s.setFl v).x = s.x := rfl
@[simp] theorem State.setFl_pc (v : Byte) : (s.setFl v).pc = s.pc := rfl
@[simp] theorem State.setFl_fl (v : Byte) : (s.setFl v).fl = v := rfl
@[simp] theorem State.setFl_running (v : Byte) : (s.setFl v).running = s.running := rfl
@[simp] theorem State.setFl_fault (v : Byte) : (s.setFl v).fault = s.fault := rfl
@[simp] theorem State.setFl_faultInfo (v : Byte) : (s.setFl v).faultInfo = s.faultInfo := rfl
@[simp] theorem State.setFl_out (v : Byte) : (s.setFl v).out = s.out := rfl

@[simp] theorem State.emit_mem (v : Byte) : (s.emit v).mem = s.mem := rfl
@[simp] theorem State.emit_x (v : Byte) : (s.emit v).x = s.x := rfl
@[simp] theorem State.emit_pc (v : Byte) : (s.emit v).pc = s.pc := rfl
@[simp] theorem State.emit_fl (v : Byte) : (s.emit v).fl = s.fl := rfl
@[simp] theorem State.emit_running (v : Byte) : (s.emit v).running = s.running := rfl
@[simp] theorem State.emit_fault (v : Byte) : (s.emit v).fault = s.fault := rfl
@[simp] theorem State.emit_faultInfo (v : Byte) : (s.emit v).faultInfo = s.faultInfo := rfl
@[simp] theorem State.emit_out (v : Byte) : (s.emit v).out = s.out ++ [v] := rfl

@[simp] theorem State.halt_mem : (s.halt).mem = s.mem := rfl
@[simp] theorem State.halt_x : (s.halt).x = s.x := rfl
@[simp] theorem State.halt_pc : (s.halt).pc = s.pc := rfl
@[simp] theorem State.halt_fl : (s.halt).fl = s.fl := rfl
@[simp] theorem State.halt_running : (s.halt).running = false := rfl
@[simp] theorem State.halt_fault : (s.halt).fault = s.fault := rfl
@[simp] theorem State.halt_faultInfo : (s.halt).faultInfo = s.faultInfo := rfl
@[simp] theorem State.halt_out : (s.halt).out = s.out := rfl

@[simp] theorem State.raise_mem (f : FaultLatch) (b : Byte) : (s.raise f b).mem = s.mem := rfl
@[simp] theorem State.raise_x (f : FaultLatch) (b : Byte) : (s.raise f b).x = s.x := rfl
@[simp] theorem State.raise_pc (f : FaultLatch) (b : Byte) : (s.raise f b).pc = s.pc := rfl
@[simp] theorem State.raise_fl (f : FaultLatch) (b : Byte) : (s.raise f b).fl = s.fl := rfl
@[simp] theorem State.raise_running (f : FaultLatch) (b : Byte) : (s.raise f b).running = s.running := rfl
@[simp] theorem State.raise_fault (f : FaultLatch) (b : Byte) : (s.raise f b).fault = f := rfl
@[simp] theorem State.raise_faultInfo (f : FaultLatch) (b : Byte) : (s.raise f b).faultInfo = b := rfl
@[simp] theorem State.raise_out (f : FaultLatch) (b : Byte) : (s.raise f b).out = s.out := rfl

@[simp] theorem State.memWrite_reg (a v : Byte) (k : Fin 8) : (s.memWrite a v).reg k = s.reg k := rfl
@[simp] theorem State.memWrite_sp (a v : Byte) : (s.memWrite a v).sp = s.sp := rfl
@[simp] theorem State.setReg_memRead (i : Fin 8) (v : Byte) (w : Byte) : (s.setReg i v).memRead w = s.memRead w := rfl
@[simp] theorem State.decSp_memRead (w : Byte) : (s.decSp).memRead w = s.memRead w := rfl
@[simp] theorem State.incSp_memRead (w : Byte) : (s.incSp).memRead w = s.memRead w := rfl
@[simp] theorem State.setPc_memRead (p : Byte) (w : Byte) : (s.setPc p).memRead w = s.memRead w := rfl
@[simp] theorem State.setPc_reg (p : Byte) (k : Fin 8) : (s.setPc p).reg k = s.reg k := rfl
@[simp] theorem State.setPc_sp (p : Byte) : (s.setPc p).sp = s.sp := rfl
@[simp] theorem State.advance_memRead (n : Byte) (w : Byte) : (s.advance n).memRead w = s.memRead w := rfl
@[simp] theorem State.advance_reg (n : Byte) (k : Fin 8) : (s.advance n).reg k = s.reg k := rfl
@[simp] theorem State.advance_sp (n : Byte) : (s.advance n).sp = s.sp := rfl
@[simp] theorem State.setFl_memRead (v : Byte) (w : Byte) : (s.setFl v).memRead w = s.memRead w := rfl
@[simp] theorem State.setFl_reg (v : Byte) (k : Fin 8) : (s.setFl v).reg k = s.reg k := rfl
@[simp] theorem State.setFl_sp (v : Byte) : (s.setFl v).sp = s.sp := rfl
@[simp] theorem State.emit_memRead (v : Byte) (w : Byte) : (s.emit v).memRead w = s.memRead w := rfl
@[simp] theorem State.emit_reg (v : Byte) (k : Fin 8) : (s.emit v).reg k = s.reg k := rfl
@[simp] theorem State.emit_sp (v : Byte) : (s.emit v).sp = s.sp := rfl
@[simp] theorem State.halt_memRead (w : Byte) : (s.halt).memRead w = s.memRead w := rfl
@[simp] theorem State.halt_reg (k : Fin 8) : (s.halt).reg k = s.reg k := rfl
@[simp] theorem State.halt_sp : (s.halt).sp = s.sp := rfl
@[simp] theorem State.raise_memRead (f : FaultLatch) (b : Byte) (w : Byte) : (s.raise f b).memRead w = s.memRead w := rfl
@[simp] theorem State.raise_reg (f : FaultLatch) (b : Byte) (k : Fin 8) : (s.raise f b).reg k = s.reg k := rfl
@[simp] theorem State.raise_sp (f : FaultLatch) (b : Byte) : (s.raise f b).sp = s.sp := rfl

/-- A register reads the last value written to it; the others are unchanged (00_scope.md R7). -/
@[simp] theorem State.setReg_reg (i k : Fin 8) (v : Byte) :
    (s.setReg i v).reg k = if k = i then v else s.reg k := by
  simp only [State.reg, State.setReg, Vector.get_eq_getElem, Vector.getElem_set, Fin.ext_iff, eq_comm]

@[simp] theorem State.decSp_reg (k : Fin 8) :
    s.decSp.reg k = if k = spIndex then sub8 s.sp 1#8 else s.reg k := State.setReg_reg s _ _ _

@[simp] theorem State.incSp_reg (k : Fin 8) :
    s.incSp.reg k = if k = spIndex then add8 s.sp 1#8 else s.reg k := State.setReg_reg s _ _ _

@[simp] theorem State.decSp_sp : s.decSp.sp = sub8 s.sp 1#8 := by simp [State.sp]

@[simp] theorem State.incSp_sp : s.incSp.sp = add8 s.sp 1#8 := by simp [State.sp]

@[simp] theorem State.setReg_sp (i : Fin 8) (v : Byte) :
    (s.setReg i v).sp = if spIndex = i then v else s.sp := State.setReg_reg s _ _ _

/-- Two register files that read alike are equal. -/
theorem State.x_ext (s t : State) (h : ∀ k, t.reg k = s.reg k) : t.x = s.x := by
  apply Vector.ext
  intro i hi
  exact h ⟨i, hi⟩

/-- The run state is RUNNING exactly without a fault and with the running flag set (10_state.md R39). -/
theorem State.runState_running_iff : s.runState = .running ↔ s.fault = .noFault ∧ s.running = true := by
  unfold State.runState
  cases s.fault <;> cases s.running <;> simp

/-- The run state is HALTED exactly without a fault and with the running flag clear (10_state.md R39). -/
theorem State.runState_halted_iff : s.runState = .halted ↔ s.fault = .noFault ∧ s.running = false := by
  unfold State.runState
  cases s.fault <;> cases s.running <;> simp

/-- The run state is FAULTED exactly when a fault is latched (10_state.md R39). -/
theorem State.runState_faulted_iff : s.runState = .faulted ↔ s.fault ≠ .noFault := by
  unfold State.runState
  cases s.fault <;> cases s.running <;> simp

end Sys2Proof.Machine
end

