-- ==== Sys2Proof/Laws/Memory.lean ====
section
/-! SUPPORT. The laws of memory: what a cell reads after a write, and that a write keeps the canonical form. The
read laws hold of every list of cells; the canonical form makes equal memories equal lists. -/

namespace Sys2Proof.Machine

/-- An address whose cells are the same in two memories reads the same in both. -/
theorem Memory.read_congr {m n : Memory} {a : Byte}
    (h : (m.cells.filter fun c => c.1 == a.toNat) = n.cells.filter fun c => c.1 == a.toNat) :
    m.read a = n.read a := by
  unfold Memory.read
  rw [← List.head?_filter, ← List.head?_filter, h]

/-- Read after write: the written cell reads the value, every other cell is unchanged (20_memory.md R50, R51). -/
theorem Memory.read_write (m : Memory) (a v b : Byte) :
    (m.write a v).read b = if b = a then v else m.read b := by
  by_cases hba : b = a
  · subst hba
    have hf : ∀ l : List Host.Cell, ∀ p : Host.Cell → Bool, (∀ c, p c = true → c.1 ≠ b.toNat) →
        (l.filter p).find? (fun c => c.1 == b.toNat) = none := by
      intro l p hp
      simp only [List.find?_eq_none, List.mem_filter]
      intro c hc
      simpa using hp c hc.2
    have h1 := hf m.cells (fun c => decide (c.1 < b.toNat)) (by intro c; simp; omega)
    have h2 := hf m.cells (fun c => decide (b.toNat < c.1)) (by intro c; simp; omega)
    by_cases hv : v = Memory.unlisted
    · simp [Memory.read, Memory.write, List.find?_append, h1, h2, hv]
    · simp [Memory.read, Memory.write, List.find?_append, h1, hv]
  · have hn : a.toNat ≠ b.toNat := fun h => hba (BitVec.eq_of_toNat_eq h.symm)
    rw [if_neg hba]
    apply Memory.read_congr
    simp only [Memory.write, List.filter_append, List.filter_filter]
    have hm : (if v = Memory.unlisted then ([] : List Host.Cell) else [(a.toNat, v)]).filter
        (fun c => c.1 == b.toNat) = [] := by
      split <;> simp [hn]
    rw [hm, List.append_nil]
    rcases Nat.lt_or_gt_of_ne hn with h | h
    · have e1 : (fun c : Host.Cell => (c.1 == b.toNat) && decide (c.1 < a.toNat)) = fun _ => false := by
        funext c; simp; omega
      have e2 : (fun c : Host.Cell => (c.1 == b.toNat) && decide (a.toNat < c.1)) = fun c => c.1 == b.toNat := by
        funext c
        by_cases hc : c.1 = b.toNat <;> simp [hc]
        omega
      simp [e1, e2]
    · have e1 : (fun c : Host.Cell => (c.1 == b.toNat) && decide (c.1 < a.toNat)) = fun c => c.1 == b.toNat := by
        funext c
        by_cases hc : c.1 = b.toNat <;> simp [hc]
        omega
      have e2 : (fun c : Host.Cell => (c.1 == b.toNat) && decide (a.toNat < c.1)) = fun _ => false := by
        funext c; simp; omega
      simp [e1, e2]

/-- A write keeps the canonical form. -/
theorem Memory.write_wf {m : Memory} (h : m.wf) (a v : Byte) : (m.write a v).wf := by
  obtain ⟨hs, hb⟩ := h
  have ha : a.toNat < 256 := a.isLt
  constructor
  · simp only [Memory.write, List.append_assoc]
    rw [List.pairwise_append]
    refine ⟨hs.filter _, ?_, ?_⟩
    · rw [List.pairwise_append]
      refine ⟨?_, hs.filter _, ?_⟩
      · split <;> simp
      · intro c hc d hd
        simp only [List.mem_filter, decide_eq_true_eq] at hd
        split at hc <;> simp at hc
        subst hc
        exact hd.2
    · intro c hc d hd
      simp only [List.mem_filter, decide_eq_true_eq] at hc
      rw [List.mem_append] at hd
      rcases hd with hd | hd
      · split at hd <;> simp at hd
        subst hd
        exact hc.2
      · simp only [List.mem_filter, decide_eq_true_eq] at hd
        omega
  · intro c hc
    simp only [Memory.write, List.mem_append, List.mem_filter] at hc
    rcases hc with (hc | hc) | hc
    · exact hb c hc.1
    · split at hc
      · simp at hc
      · rename_i hv
        simp only [List.mem_singleton] at hc
        subst hc
        exact ⟨ha, hv⟩
    · exact hb c hc.1

/-- The memory of the reset state has the canonical form. -/
theorem Memory.reset_wf (b : Byte) : (State.resetWith b).mem.wf :=
  ⟨List.Pairwise.nil, by simp [State.resetWith]⟩

/-- `MemRead` after `MemWrite` (20_memory.md R50, R51). -/
@[simp] theorem State.memWrite_memRead (s : State) (a v b : Byte) :
    (s.memWrite a v).memRead b = if b = a then v else s.memRead b := Memory.read_write s.mem a v b

end Sys2Proof.Machine
end

