-- ==== Sys2Proof/Laws/Operands.lean ====
section
/-! SUPPORT. The one lemma of the operand check: which of its two ways it goes (spec/60_exceptions.md R162). -/

namespace Sys2Proof.Machine

/-- An operand byte 0 to 7 names its register (30_encoding.md R73). -/
theorem regIndex_of_lt {b : Byte} (h : b.toNat < 8) : regIndex b = some ⟨b.toNat, h⟩ := dif_pos h

/-- An operand byte above 7 names none (30_encoding.md R73). -/
theorem regIndex_of_gt {b : Byte} (h : 7 < b.toNat) : regIndex b = none := dif_neg (by omega)

variable {b : Byte} {s : State} {k : Fin 8 → Host.Outcome State Fault Refusal}

/-- A check that passes goes on with the register's index. -/
theorem checkReg_of_lt (h : b.toNat < 8) : checkReg b s k = k ⟨b.toNat, h⟩ := by
  simp [checkReg, regIndex_of_lt h]

/-- A check that fails takes the fault and nothing else (60_exceptions.md R162, R164). -/
theorem checkReg_of_gt (h : 7 < b.toNat) : checkReg b s k = .next (s.raise .registerIndex b) := by
  simp [checkReg, regIndex_of_gt h]

/-- All that a check can do. -/
theorem checkReg_cases (b : Byte) (s : State) (k : Fin 8 → Host.Outcome State Fault Refusal) :
    (∃ h : b.toNat < 8, checkReg b s k = k ⟨b.toNat, h⟩) ∨
    (7 < b.toNat ∧ checkReg b s k = .next (s.raise .registerIndex b)) := by
  by_cases h : b.toNat < 8
  · exact .inl ⟨h, checkReg_of_lt h⟩
  · exact .inr ⟨by omega, checkReg_of_gt (by omega)⟩

end Sys2Proof.Machine
end

