-- ==== Sys2Proof/Laws/Exec.lean ====
section
/-! SUPPORT. What every instruction does, said once with its operand checks written out: proofs about `exec` start from
`exec_eq` and need not unfold a meaning. Then the same for the tables of the claims. -/

namespace Sys2Proof.Machine

/-- The operand check as a case distinction (60_exceptions.md R162). -/
theorem checkReg_eq (b : Byte) (s : State) (k : Fin 8 → Host.Outcome State Fault Refusal) :
    checkReg b s k = if h : b.toNat < 8 then k ⟨b.toNat, h⟩ else .next (s.raise .registerIndex b) := by
  split
  · exact checkReg_of_lt ‹_›
  · exact checkReg_of_gt (by omega)

/-- Every instruction's effect, with the checks as case distinctions. -/
theorem exec_eq (i : Instr) (s : State) : exec i s =
    match i with
    | .ldi a imm =>
      if h : a.toNat < 8 then .next ((s.setReg ⟨a.toNat, h⟩ imm).advance 3#8) else .next (s.raise .registerIndex a)
    | .prn a =>
      if h : a.toNat < 8 then .next ((s.emit (s.reg ⟨a.toNat, h⟩)).advance 2#8)
      else .next (s.raise .registerIndex a)
    | .hlt => .next (s.halt.advance 1#8)
    | .mul a b =>
      if ha : a.toNat < 8 then
        if hb : b.toNat < 8 then
          .next ((s.setReg ⟨a.toNat, ha⟩ (mul8 (s.reg ⟨a.toNat, ha⟩) (s.reg ⟨b.toNat, hb⟩))).advance 3#8)
        else .next (s.raise .registerIndex b)
      else .next (s.raise .registerIndex a)
    | .add a b =>
      if ha : a.toNat < 8 then
        if hb : b.toNat < 8 then
          .next ((s.setReg ⟨a.toNat, ha⟩ (add8 (s.reg ⟨a.toNat, ha⟩) (s.reg ⟨b.toNat, hb⟩))).advance 3#8)
        else .next (s.raise .registerIndex b)
      else .next (s.raise .registerIndex a)
    | .push a =>
      if h : a.toNat < 8 then .next ((s.decSp.memWrite s.decSp.sp (s.decSp.reg ⟨a.toNat, h⟩)).advance 2#8)
      else .next (s.raise .registerIndex a)
    | .pop a =>
      if h : a.toNat < 8 then .next ((s.setReg ⟨a.toNat, h⟩ (s.memRead s.sp)).incSp.advance 2#8)
      else .next (s.raise .registerIndex a)
    | .call a =>
      if h : a.toNat < 8 then
        .next ((s.decSp.memWrite s.decSp.sp (add8 s.pc 2#8)).setPc (s.decSp.reg ⟨a.toNat, h⟩))
      else .next (s.raise .registerIndex a)
    | .ret => .next (s.setPc (s.memRead s.sp)).incSp
    | .cmp a b =>
      if ha : a.toNat < 8 then
        if hb : b.toNat < 8 then
          .next ((s.setFl (cmp8 (s.reg ⟨a.toNat, ha⟩) (s.reg ⟨b.toNat, hb⟩))).advance 3#8)
        else .next (s.raise .registerIndex b)
      else .next (s.raise .registerIndex a)
    | .jmp a =>
      if h : a.toNat < 8 then .next (s.setPc (s.reg ⟨a.toNat, h⟩)) else .next (s.raise .registerIndex a)
    | .jeq a =>
      if s.fl.toNat % 2 = 1 then
        if h : a.toNat < 8 then .next (s.setPc (s.reg ⟨a.toNat, h⟩)) else .next (s.raise .registerIndex a)
      else .next (s.advance 2#8)
    | .jne a =>
      if s.fl.toNat % 2 = 1 then .next (s.advance 2#8)
      else if h : a.toNat < 8 then .next (s.setPc (s.reg ⟨a.toNat, h⟩))
      else .next (s.raise .registerIndex a) := by
  cases i <;> simp only [exec, execLdi, execPrn, execHlt, execMul, execAdd, execPush, execPop, execCall, execRet,
    execCmp, execJmp, execJeq, execJne, aluOp, jumpTo, branchIf, checkReg_eq, flagE_eq] <;> (try rfl)
  all_goals (by_cases hf : s.fl.toNat % 2 = 1 <;> simp [hf])

/-- The first bad operand of one checked byte. -/
theorem find_bad_one (a : Byte) :
    List.find? (fun b : Byte => decide (7 < b.toNat)) [a] = if a.toNat < 8 then none else some a := by
  by_cases h : a.toNat < 8 <;> simp [h] <;> omega

/-- The first bad operand of two checked bytes. -/
theorem find_bad_two (a b : Byte) :
    List.find? (fun b : Byte => decide (7 < b.toNat)) [a, b] =
      if a.toNat < 8 then (if b.toNat < 8 then none else some b) else some a := by
  have ha : (7 < a.toNat) = ¬ a.toNat < 8 := propext (by omega)
  have hb : (7 < b.toNat) = ¬ b.toNat < 8 := propext (by omega)
  by_cases h : a.toNat < 8 <;> by_cases h' : b.toNat < 8 <;> simp [List.find?, ha, hb, h, h']

/-- On a byte below 8 the claims' index is the checked index. -/
theorem operandIndex_of_lt {a : Byte} (h : a.toNat < 8) : operandIndex a = ⟨a.toNat, h⟩ := by
  simp [operandIndex, Nat.mod_eq_of_lt h]

/-- The pc advance as the claims write it. -/
theorem add8_pc (s : State) (n : Nat) (b : Byte) (h : b.toNat = n) : add8 s.pc b = pcPlus s n := by
  apply BitVec.eq_of_toNat_eq
  rw [add8_toNat, h]
  simp [pcPlus]

end Sys2Proof.Machine
end

