-- ==== Sys2Proof/Laws/Step.lean ====
section
/-! SUPPORT. What one step can do, said once, and the small lemmas of the host's operations. -/

namespace Sys2Proof.Machine

variable {c : Config} {s t : State}

theorem stepWith_of_running (h : s.runState = .running) : stepWith c s = fetchDecodeExecute c s := by
  simp [stepWith, h]

theorem stepWith_of_stopped (h : s.runState ≠ .running) : stepWith c s = .next s := by
  unfold stepWith
  cases hr : s.runState <;> simp_all

/-- All that a step can do: nothing on a stopped unit, take `IllegalInstruction`, or execute the decoded
instruction (30_encoding.md R82). -/
theorem stepWith_cases (c : Config) (s : State) :
    (s.runState ≠ .running ∧ stepWith c s = .next s) ∨
    (s.runState = .running ∧ ∃ ir, decode c.opc (fetch s) = .illegalInstruction ir ∧
      stepWith c s = .next (s.raise .illegalInstruction ir)) ∨
    (s.runState = .running ∧ ∃ i, decode c.opc (fetch s) = .instr i ∧ stepWith c s = exec i s) := by
  by_cases h : s.runState = .running
  · rw [stepWith_of_running h]
    unfold fetchDecodeExecute
    cases hd : decode c.opc (fetch s) with
    | instr i => exact .inr (.inr ⟨h, i, rfl, rfl⟩)
    | illegalInstruction ir => exact .inr (.inl ⟨h, ir, rfl, rfl⟩)
  · exact .inl ⟨h, stepWith_of_stopped h⟩

/-- `load` and `write` change memory only (70_reset_and_hazards.md R186). -/
theorem writeFrom_eq (a : Nat) (bytes : List Nat) (s : State) :
    writeFrom a bytes s = { s with mem := (writeFrom a bytes s).mem } := by
  induction bytes generalizing a s with
  | nil => rfl
  | cons b rest ih =>
    simp only [writeFrom]
    rw [ih]
    rfl

/-- `load` keeps the canonical form of memory. -/
theorem writeFrom_wf (a : Nat) (bytes : List Nat) (s : State) (h : s.mem.wf) : (writeFrom a bytes s).mem.wf := by
  induction bytes generalizing a s with
  | nil => exact h
  | cons b rest ih => exact ih _ _ (Memory.write_wf h _ _)

end Sys2Proof.Machine
end

