-- ==== Sys2Proof/Tests/Slice0.lean ====
section
/-! SUPPORT. The model's own tests. Expected results are the vectors of spec/95_test_vectors.md (named in each
comment) or the words written out from spec/30_encoding.md; the witnesses show states and operands that meet the
hypotheses of the statements in Certificates/Slice0/Obligations.lean. -/

namespace Sys2Proof.Tests

open Sys2Proof Sys2Proof.Machine

/-- The outcome is a next state of which `p` holds. -/
def after (o : Host.Outcome State Fault Refusal) (p : State → Bool) : Bool :=
  match o with
  | .next t => p t
  | .fault _ => false
  | .refused _ => false

/-- One step with the bytes placed at the pc of `s`. -/
def stepOn (s : State) (b0 b1 b2 : Byte) : Host.Outcome State Fault Refusal :=
  step (placeInstruction s ⟨b0, b1, b2⟩)

/-- The step latched the fault code and byte and left the pc. -/
def latched (s : State) (code : FaultLatch) (info : Byte) (t : State) : Bool :=
  t.fault == code && t.faultInfo == info && t.pc == s.pc && t.running

/-- The reset state with the pc moved. -/
def at' (pc : Byte) : State := State.reset.setPc pc

/-- A unit HLT has stopped. -/
def haltedState : State := State.reset.halt

/-- A unit with an illegal instruction latched. -/
def faultedState : State := State.reset.raise .illegalInstruction 0

/-! ## Well-formedness: one ill-formed term per check -/

theorem test_ill_formed_first_operand :
    ([Instr.ldi 8 0, .prn 8, .mul 8 0, .add 8 0, .push 8, .pop 8, .call 8, .cmp 8 0, .jmp 8, .jeq 8,
      .jne 255].all fun i => !i.wellFormed) = true := by decide
theorem test_ill_formed_second_operand :
    ([Instr.mul 0 8, .add 0 8, .cmp 0 255].all fun i => !i.wellFormed) = true := by decide
theorem test_well_formed :
    ([Instr.ldi 7 255, .prn 7, .hlt, .mul 7 7, .add 7 7, .push 7, .pop 7, .call 7, .ret, .cmp 7 7, .jmp 7, .jeq 7,
      .jne 7].all fun i => i.wellFormed) = true := by decide

/-! ## Decoding: each instruction's word from 30_encoding.md R78, numbered as the opcode table numbers it -/

theorem test_decode_ldi : decodeTableWord 24 0b00001000_00000011_10000010 = some (.ldi 3 8) := by decide
theorem test_decode_prn : decodeTableWord 16 0b00000100_01000111 = some (.prn 4) := by decide
theorem test_decode_hlt : decodeTableWord 8 0b00000001 = some .hlt := by decide
theorem test_decode_mul : decodeTableWord 24 0b00000100_00000011_10100010 = some (.mul 3 4) := by decide
theorem test_decode_add : decodeTableWord 24 0b00000001_00000111_10100000 = some (.add 7 1) := by decide
theorem test_decode_push : decodeTableWord 16 0b00000011_01000101 = some (.push 3) := by decide
theorem test_decode_pop : decodeTableWord 16 0b00000110_01000110 = some (.pop 6) := by decide
theorem test_decode_call : decodeTableWord 16 0b00000001_01010000 = some (.call 1) := by decide
theorem test_decode_ret : decodeTableWord 8 0b00010001 = some .ret := by decide
theorem test_decode_cmp : decodeTableWord 24 0b00000010_00000000_10100111 = some (.cmp 0 2) := by decide
theorem test_decode_jmp : decodeTableWord 16 0b00000010_01010100 = some (.jmp 2) := by decide
theorem test_decode_jeq : decodeTableWord 16 0b00000011_01010101 = some (.jeq 3) := by decide
theorem test_decode_jne : decodeTableWord 16 0b11111111_01010110 = some (.jne 255) := by decide
/-- V-D4, the near misses. -/
theorem test_decode_near_misses :
    ([0x00, 0x02, 0x10, 0x44, 0x48, 0x51, 0x53, 0x57, 0x83, 0xA1, 0xA3, 0xA6, 0xA8, 0xFF].all
      fun b : Byte => (decodeOpcode defaultOpc b).isNone) = true := by decide
/-- 30_encoding.md R87's table: `LDI R0, 8` and `PUSH R0`, as in program P2's bytes. -/
theorem test_encode : encode defaultOpc (.ldi 0 8) = [0x82, 0x00, 0x08] ∧ encode defaultOpc (.push 0) = [0x45, 0x00] := by
  decide

/-! ## Instructions, one step each -/

/-- V-M6. -/
theorem test_ldi_wraps_the_pc : after (stepOn (at' 253) 0x82 0x00 0x01) (fun t => t.reg 0 == 1 && t.pc == 0) = true := by
  decide
/-- V-M8. -/
theorem test_ldi_bad_index :
    after (stepOn (at' 0) 0x82 0x08 0x05) (fun t => latched (at' 0) .registerIndex 8 t && t.x == State.reset.x) = true := by
  decide
/-- V-M9. -/
theorem test_prn_emits :
    after (stepOn ((at' 9).setReg 0 17) 0x47 0x00 0x01) (fun t => t.out == [17] && t.pc == 11 && t.reg 0 == 17) = true := by
  decide
/-- V-M12. -/
theorem test_prn_bad_index :
    after (stepOn (at' 0) 0x47 0x08 0x00) (fun t => latched (at' 0) .registerIndex 8 t && t.out == []) = true := by decide
/-- V-M13. -/
theorem test_hlt_halts :
    after (stepOn (at' 11) 0x01 0x00 0x00) (fun t => !t.running && t.pc == 12 && t.runState == .halted) = true := by decide
/-- V-M14, V-D1. -/
theorem test_hlt_at_the_top : after (stepOn (at' 255) 0x01 0x82 0x00) (fun t => !t.running && t.pc == 0) = true := by
  decide
/-- V-A12. -/
theorem test_mul_wraps :
    after (stepOn (((at' 0).setReg 0 200).setReg 1 100) 0xA2 0x00 0x01)
      (fun t => t.reg 0 == 32 && t.reg 1 == 100 && t.pc == 3) = true := by decide
/-- V-A16. -/
theorem test_mul_reports_the_first_operand :
    after (stepOn (at' 0) 0xA2 0x09 0x0A) (latched (at' 0) .registerIndex 9) = true := by decide
/-- V-A2, V-A15. -/
theorem test_add_wraps :
    after (stepOn ((((at' 0).setReg 1 200).setReg 2 100).setFl 4) 0xA0 0x01 0x02)
      (fun t => t.reg 1 == 44 && t.reg 2 == 100 && t.fl == 4 && t.pc == 3) = true := by decide
/-- V-A17. -/
theorem test_add_bad_second_operand :
    after (stepOn (at' 0) 0xA0 0x01 0x0A) (fun t => latched (at' 0) .registerIndex 10 t && t.reg 1 == 0) = true := by decide
/-- V-S1. -/
theorem test_push_wraps_the_stack :
    after (stepOn ((at' 3).setReg 0 5) 0x45 0x00 0x00)
      (fun t => t.sp == 255 && t.memRead 255 == 5 && t.pc == 5 && t.reg 0 == 5) = true := by decide
/-- V-S5. -/
theorem test_push_sp :
    after (stepOn ((at' 0).setReg 7 128) 0x45 0x07 0x00) (fun t => t.sp == 127 && t.memRead 127 == 127) = true := by decide
/-- V-S2. -/
theorem test_pop_loads :
    after (stepOn ((((at' 8).setReg 7 255).setReg 0 99).memWrite 255 5) 0x46 0x00 0x00)
      (fun t => t.reg 0 == 5 && t.sp == 0 && t.pc == 10 && t.memRead 255 == 5) = true := by decide
/-- V-S6. -/
theorem test_pop_sp :
    after (stepOn (((at' 0).setReg 7 128).memWrite 128 32) 0x46 0x07 0x00) (fun t => t.sp == 33) = true := by decide
/-- V-S11: the CALL's own operand byte is overwritten after it was fetched. -/
theorem test_call_over_its_own_operand :
    after (stepOn ((at' 254).setReg 1 20) 0x50 0x01 0x00)
      (fun t => t.sp == 255 && t.memRead 255 == 0 && t.pc == 20) = true := by decide
/-- V-S12. -/
theorem test_call_sp :
    after (stepOn ((at' 3).setReg 7 128) 0x50 0x07 0x00)
      (fun t => t.sp == 127 && t.memRead 127 == 5 && t.pc == 127) = true := by decide
/-- V-S14. -/
theorem test_ret_pops :
    after (stepOn (((at' 14).setReg 7 255).memWrite 255 8) 0x11 0x00 0x00) (fun t => t.pc == 8 && t.sp == 0) = true := by
  decide
/-- V-S16. -/
theorem test_ret_with_nothing_pushed :
    after (stepOn (at' 0) 0x11 0x00 0x00) (fun t => t.pc == 17 && t.sp == 1) = true := by decide
/-- V-C5. -/
theorem test_cmp_is_unsigned :
    after (stepOn (((at' 0).setReg 0 5).setReg 1 200) 0xA7 0x01 0x00) (fun t => t.fl == 2 && t.pc == 3) = true := by decide
/-- V-C6. -/
theorem test_cmp_overwrites :
    after (stepOn (((at' 0).setReg 4 77).setFl 2) 0xA7 0x04 0x04) (fun t => t.fl == 1) = true := by decide
/-- V-C9. -/
theorem test_jmp : after (stepOn ((at' 3).setReg 0 255) 0x54 0x00 0x00) (fun t => t.pc == 255) = true := by decide
/-- V-C11. -/
theorem test_jmp_bad_index : after (stepOn (at' 0) 0x54 0x08 0x00) (latched (at' 0) .registerIndex 8) = true := by decide
/-- V-C12, V-C14. -/
theorem test_jeq_taken_and_not :
    (after (stepOn (((at' 20).setReg 3 12).setFl 1) 0x55 0x03 0x00) (fun t => t.pc == 12) &&
     after (stepOn (((at' 20).setReg 3 12).setFl 2) 0x55 0x03 0x00) (fun t => t.pc == 22)) = true := by decide
/-- V-C16, V-C17. -/
theorem test_jeq_operand_used_only_when_taken :
    (after (stepOn (at' 0) 0x55 0x09 0x00) (fun t => t.pc == 2 && t.fault == .noFault) &&
     after (stepOn ((at' 0).setFl 1) 0x55 0x09 0x00) (latched (at' 0) .registerIndex 9)) = true := by decide
/-- V-C19, V-C20. -/
theorem test_jne_taken_and_not :
    (after (stepOn (((at' 20).setReg 3 12).setFl 2) 0x56 0x03 0x00) (fun t => t.pc == 12) &&
     after (stepOn (((at' 20).setReg 3 12).setFl 1) 0x56 0x03 0x00) (fun t => t.pc == 22)) = true := by decide
/-- V-C22, V-C23. -/
theorem test_jne_operand_used_only_when_taken :
    (after (stepOn ((at' 0).setFl 1) 0x56 0x09 0x00) (fun t => t.pc == 2 && t.fault == .noFault) &&
     after (stepOn (at' 2) 0x56 0x09 0x00) (latched (at' 2) .registerIndex 9)) = true := by decide

/-! ## Faults, stops, host -/

/-- V-F1. -/
theorem test_illegal_instruction :
    after (stepOn (at' 0) 0xFF 0x00 0x00)
      (fun t => latched (at' 0) .illegalInstruction 0xFF t && t.x == State.reset.x && t.runState == .faulted) = true := by
  decide
/-- V-M15, V-F3. -/
theorem test_stopped_units_do_not_step :
    (after (step haltedState) (· == haltedState) && after (step faultedState) (· == faultedState)) = true := by decide
/-- V-H2. -/
theorem test_load :
    after (hostLoad [0x82, 0x00, 0x08, 0x01] State.reset)
      (fun t => t.mem.cells == [(0, 0x82), (2, 0x08), (3, 0x01)] && t.pc == 0) = true := by decide
/-- V-H4. -/
theorem test_host_write_then_read :
    after (hostWrite 200 7 State.reset) (fun t => hostRead 200 t == .value 7) = true := by decide

/-! ## Witnesses: the hypotheses of the statements can be met -/

/-- The state with `PUSH R0; POP R6` at address 0 and the stack at 0x80. -/
def pushPopState : State :=
  ((((State.reset.memWrite 0 0x45).memWrite 2 0x46).memWrite 3 6).setReg 7 0x80).setReg 0 9

/-- The state with HLT at the pc. -/
def hltState : State := State.reset.memWrite 0 0x01

theorem reset_meets_machineInv : MachineInv State.reset :=
  ⟨by decide, by decide, by decide, by decide⟩

theorem witness_StepRunsTheDecodedInstruction :
    hltState.running = true ∧ hltState.fault = .noFault ∧
    decode defaultOpc ⟨hltState.memRead hltState.pc, hltState.memRead (add8 hltState.pc 1#8),
      hltState.memRead (add8 hltState.pc 2#8)⟩ = .instr .hlt ∧
    haltedState.running = false ∧ faultedState.fault ≠ .noFault := by decide
theorem witness_IllegalOpcodeTakesTheFault :
    State.reset.runState = .running ∧ ∀ m, defaultConfig.opc m ≠ State.reset.memRead State.reset.pc :=
  ⟨by decide, by intro m; cases m <;> decide⟩
theorem witness_StepDoesNothingWhenStopped :
    State.reset.runState = .running ∧ haltedState.runState = .halted ∧ faultedState.runState = .faulted := by decide
theorem witness_DecodeOfEncode :
    encode defaultOpc .hlt <+: (⟨0x01, 3, 4⟩ : FetchedBytes).toList ∧
    encode defaultOpc (.prn 255) <+: (⟨0x47, 255, 4⟩ : FetchedBytes).toList ∧
    encode defaultOpc (.ldi 255 0) <+: (⟨0x82, 255, 0⟩ : FetchedBytes).toList := by decide
theorem witness_EncodeOfDecode : decode defaultOpc ⟨0xA0, 255, 0⟩ = .instr (.add 255 0) := by decide
theorem witness_UnusedOperandBytesDoNotMatter :
    defaultConfig.opc .hlt = 0x01 ∧ ¬ 2 ≤ Mnemonic.hlt.length ∧
    defaultConfig.opc .prn = 0x47 ∧ 2 ≤ Mnemonic.prn.length ∧ ¬ 3 ≤ Mnemonic.prn.length ∧
    defaultConfig.opc .ldi = 0x82 ∧ 3 ≤ Mnemonic.ldi.length := by decide
/-- The highest register and the lowest byte that names none: the two clauses of each one-operand instruction, at
the boundary, with the outcome of the clause. -/
theorem witness_LdiLoadsItsLiteral : (7 : Byte).toNat < 8 ∧ 7 < (8 : Byte).toNat ∧
    after (exec (.ldi 7 0xF4) State.reset) (·.sp == 0xF4) ∧ after (exec (.ldi 8 0) State.reset) (·.faultInfo == 8) := by
  decide
theorem witness_PrnEmitsItsRegister : (7 : Byte).toNat < 8 ∧ 7 < (8 : Byte).toNat ∧
    after (exec (.prn 7) State.reset) (·.out == [0]) ∧ after (exec (.prn 8) State.reset) (·.faultInfo == 8) := by decide
theorem witness_HltStopsTheUnit : State.reset.fault = .noFault ∧ after (exec .hlt State.reset) (·.runState == .halted) := by
  decide
theorem witness_MulKeepsTheLowByte : (7 : Byte).toNat < 8 ∧ (0 : Byte).toNat < 8 ∧ 7 < (8 : Byte).toNat ∧
    after (exec (.mul 7 0) State.reset) (·.sp == 0) ∧ after (exec (.mul 8 0) State.reset) (·.faultInfo == 8) ∧
    after (exec (.mul 7 8) State.reset) (·.faultInfo == 8) := by decide
theorem witness_AddWraps : (7 : Byte).toNat < 8 ∧ (0 : Byte).toNat < 8 ∧ 7 < (8 : Byte).toNat ∧
    after (exec (.add 7 0) pushPopState) (·.sp == 0x89) ∧ after (exec (.add 8 0) State.reset) (·.faultInfo == 8) ∧
    after (exec (.add 7 8) State.reset) (·.faultInfo == 8) := by decide
theorem witness_PushStoresBelowTheStack : (7 : Byte).toNat < 8 ∧ 7 < (8 : Byte).toNat ∧
    after (exec (.push 7) State.reset) (·.sp == 255) ∧ after (exec (.push 8) State.reset) (·.faultInfo == 8) := by decide
theorem witness_PopLoadsFromTheStack : (6 : Byte).toNat < 8 ∧ (6 : Byte).toNat ≠ 7 ∧ 7 < (8 : Byte).toNat ∧
    after (exec (.pop 6) hltState) (·.reg 6 == 1) ∧ after (exec (.pop 8) State.reset) (·.faultInfo == 8) := by decide
theorem witness_CallStoresTheReturnAddress : (7 : Byte).toNat < 8 ∧ 7 < (8 : Byte).toNat ∧
    after (exec (.call 7) State.reset) (·.pc == 255) ∧ after (exec (.call 8) State.reset) (·.faultInfo == 8) := by decide
theorem witness_CmpSetsOneFlag : (7 : Byte).toNat < 8 ∧ (0 : Byte).toNat < 8 ∧ 7 < (8 : Byte).toNat ∧
    after (exec (.cmp 7 0) State.reset) (·.fl == 1) ∧ after (exec (.cmp 8 0) State.reset) (·.faultInfo == 8) ∧
    after (exec (.cmp 7 8) State.reset) (·.faultInfo == 8) := by decide
theorem witness_JmpLoadsThePc : (7 : Byte).toNat < 8 ∧ 7 < (8 : Byte).toNat ∧
    after (exec (.jmp 7) pushPopState) (·.pc == 0x80) ∧ after (exec (.jmp 8) State.reset) (·.faultInfo == 8) := by decide
theorem witness_JeqBranchesOnEqual : (7 : Byte).toNat < 8 ∧ 7 < (8 : Byte).toNat ∧
    (pushPopState.setFl 1).fl.toNat % 2 = 1 ∧ pushPopState.fl.toNat % 2 = 0 ∧
    after (exec (.jeq 7) (pushPopState.setFl 1)) (·.pc == 0x80) ∧ after (exec (.jeq 8) pushPopState) (·.pc == 2) ∧
    after (exec (.jeq 8) (pushPopState.setFl 1)) (·.faultInfo == 8) := by decide
theorem witness_JneBranchesOnNotEqual : (7 : Byte).toNat < 8 ∧ 7 < (8 : Byte).toNat ∧
    (pushPopState.setFl 1).fl.toNat % 2 = 1 ∧ pushPopState.fl.toNat % 2 = 0 ∧
    after (exec (.jne 7) pushPopState) (·.pc == 0x80) ∧ after (exec (.jne 8) (pushPopState.setFl 1)) (·.pc == 2) ∧
    after (exec (.jne 8) pushPopState) (·.faultInfo == 8) := by decide
theorem witness_FirstFailingCheckIsReported : State.reset.runState = .running := by decide
theorem witness_FaultingStepIsPrecise :
    State.reset.fault = .noFault ∧
    ∃ t, stepWith defaultConfig State.reset = .next t ∧ t.fault ≠ .noFault :=
  ⟨rfl, _, rfl, by decide⟩
theorem witness_WellFormedInstructionsNeverFault : (Instr.add 7 7).WellFormed ∧ Instr.hlt.WellFormed := by decide
theorem witness_OnlyResetLeavesAStop :
    (haltedState.runState ≠ .running ∧ after (step haltedState) (fun _ => true)) ∧
    (faultedState.runState ≠ .running ∧ after (hostLoad [1] faultedState) (fun _ => true) ∧
      after (hostWrite 255 255 faultedState) (fun _ => true)) := by decide
theorem witness_FlagsAreSeenOnlyThroughBranches :
    (Instr.hlt.mnemonic ≠ .jeq ∧ Instr.hlt.mnemonic ≠ .jne) ∧
    (3 : Byte).toNat % 2 = (State.reset.setFl 1).fl.toNat % 2 := by decide
theorem witness_OnlyHltClearsRunning :
    after (stepWith defaultConfig hltState) (fun t => t.running != hltState.running) ∧
    after (hostLoad [] hltState) (fun _ => true) ∧ after (hostWrite 0 0 hltState) (fun _ => true) := by decide
theorem witness_RegistersReadAndWritten :
    (6 : Fin 8) ∉ readRegs 0 .ret ∧ (0 : Fin 8) ∉ readRegs 0 (.ldi 0 1) ∧ (7 : Fin 8) ∉ readRegs 0 (.jeq 7) := by decide
theorem witness_PcAfterEveryInstruction :
    State.reset.fault = .noFault ∧
    ∃ t, stepWith defaultConfig State.reset = .next t ∧ t.fault ≠ .noFault :=
  ⟨rfl, _, rfl, by decide⟩
theorem witness_StepKeepsInv : MachineInv State.reset ∧ ∃ t, step State.reset = .next t :=
  ⟨reset_meets_machineInv, _, rfl⟩
theorem witness_HostActsKeepInv :
    MachineInv State.reset ∧ (∃ t, hostLoad [1, 255] State.reset = .next t) ∧ ∃ t, hostWrite 255 255 State.reset = .next t :=
  ⟨reset_meets_machineInv, ⟨_, rfl⟩, _, rfl⟩
theorem witness_ReachableStatesMeetInv :
    Reachable defaultConfig (State.resetWith defaultConfig.spReset) ∧
    (∃ t, Reachable defaultConfig t ∧ t.runState = .faulted) ∧ ∃ t, Reachable defaultConfig t ∧ t.runState = .halted := by
  have hs : stepWith defaultConfig State.reset = .next faultedState := rfl
  have hw : hostWrite 0 1 State.reset = .next hltState := rfl
  have hh : stepWith defaultConfig hltState = .next (hltState.halt.advance 1#8) := rfl
  exact ⟨.reset, ⟨_, .step _ _ .reset hs, rfl⟩, _, .step _ _ (.write _ _ 0 1 .reset hw) hh, rfl⟩
theorem witness_CanonicalMemoriesAreEqual :
    Memory.wf ⟨[(0, 5), (255, 1)]⟩ ∧ ¬ Memory.wf ⟨[(0, 0)]⟩ ∧ ¬ Memory.wf ⟨[(256, 1)]⟩ ∧ ¬ Memory.wf ⟨[(1, 1), (1, 2)]⟩ := by
  decide
theorem witness_LoadCopiesTheBytes :
    (List.replicate 256 255).length ≤ 256 ∧ (∀ v ∈ List.replicate 256 255, v ≤ 255) :=
  ⟨Nat.le_of_eq List.length_replicate, fun _ hv => Nat.le_of_eq (List.eq_of_mem_replicate hv)⟩
theorem witness_HostDataTooWideIsRefused :
    256 < (List.replicate 257 0).length ∧ (∃ v ∈ [0, 256], 255 < v) ∧ (255 < 256 ∨ 255 < 0) :=
  ⟨Nat.lt_of_lt_of_eq (by decide : 256 < 257) List.length_replicate.symm, ⟨256, by decide, by decide⟩, by decide⟩
theorem witness_RunStateOfLatchAndFlag : haltedState.runState ≠ .running ∧ faultedState.runState ≠ .running := by decide
theorem witness_RunRepeatsTheStep :
    hltState.runState = .running ∧ haltedState.runState = .halted ∧ faultedState.runState = .faulted := by decide
theorem witness_RunHasOneEnd : RunReturns defaultConfig hltState (.success (hltState.halt.advance 1#8)) :=
  ⟨1, _, rfl, rfl⟩
theorem witness_RunIsEndedByHltOrFault :
    hltState.runState = .running ∧ RunReturns defaultConfig hltState (.success (hltState.halt.advance 1#8)) ∧
    State.reset.runState = .running ∧
    RunReturns defaultConfig State.reset (.failure faultedState (.illegalInstruction 0)) :=
  ⟨rfl, ⟨1, _, rfl, rfl⟩, rfl, 1, _, rfl, rfl⟩
theorem witness_PushThenPopRestores :
    (0 : Byte).toNat < 7 ∧ (6 : Byte).toNat < 7 ∧ pushPopState.runState = .running ∧
    decode defaultConfig.opc (fetch pushPopState) = .instr (.push 0) ∧
    pushPopState.memRead (add8 pushPopState.pc 2#8) = defaultConfig.opc .pop ∧
    pushPopState.memRead (add8 pushPopState.pc 3#8) = 6 ∧
    sub8 pushPopState.sp 1#8 ≠ add8 pushPopState.pc 2#8 ∧ sub8 pushPopState.sp 1#8 ≠ add8 pushPopState.pc 3#8 := by
  decide
theorem witness_CallThenReturnResumes :
    (7 : Byte).toNat < 8 ∧ ∃ t, exec (.call 7) State.reset = .next t ∧ t.sp = t.sp ∧ t.memRead t.sp = t.memRead t.sp :=
  ⟨by decide, _, rfl, rfl, rfl⟩
theorem witness_FirstStepAfterResetIsIllegal : ∀ m, defaultConfig.opc m ≠ 0 := by intro m; cases m <;> decide
theorem witness_LdiThenHltLeavesTheValue :
    (7 : Byte).toNat < 8 ∧
    (placeInstruction (State.reset.memWrite 3 0x01) ⟨0x82, 7, 9⟩).runState = .running ∧
    decode defaultConfig.opc (fetch (placeInstruction (State.reset.memWrite 3 0x01) ⟨0x82, 7, 9⟩)) = .instr (.ldi 7 9) ∧
    (placeInstruction (State.reset.memWrite 3 0x01) ⟨0x82, 7, 9⟩).memRead 3 = defaultConfig.opc .hlt := by decide
theorem witness_AddOrMulThenPrnEmitsTheResult :
    (7 : Byte).toNat < 8 ∧ (0 : Byte).toNat < 8 ∧
    ([(0xA0, Instr.add 7 0), (0xA2, Instr.mul 7 0)].all fun p : Byte × Instr =>
      let s := placeInstruction ((State.reset.memWrite 3 0x47).memWrite 4 7) ⟨p.1, 7, 0⟩
      s.runState == .running && s.memRead (add8 s.pc 3#8) == defaultConfig.opc .prn && s.memRead (add8 s.pc 4#8) == 7 &&
        decode defaultConfig.opc (fetch s) == .instr p.2) = true := by decide
theorem witness_CompareThenBranch : (0 : Byte).toNat < 8 ∧ (7 : Byte).toNat < 8 ∧
    after (exec (.cmp 0 7) pushPopState) (·.fl == 4) ∧ after (exec (.cmp 7 7) pushPopState) (·.fl == 1) := by decide
theorem witness_StoredByteIsFetchedNext : (7 : Byte).toNat < 8 ∧
    after (exec (.push 7) pushPopState) (·.memRead 0x7F == 0x7F) := by decide

end Sys2Proof.Tests
end

section
/-! The fetch addresses (spec/00_scope.md R8). -/

namespace Sys2Proof.Machine

/-- Adding a constant byte with `add8` (00_scope.md R7) is the natural-number sum kept modulo 256, the spelling in which
the rules write an address. -/
theorem add8_ofNat (a : Byte) (n : Nat) : add8 a (BitVec.ofNat 8 n) = BitVec.ofNat 8 ((a.toNat + n) % 256) := by
  apply BitVec.eq_of_toNat_eq
  simp [add8_toNat]

/-- Settles O1: `fetch` reads at `pc` and at the two `add8` successors of it, which are the addresses modulo 256. -/
theorem fetchReadsThreeConsecutiveBytes : Obligations.FetchReadsThreeConsecutiveBytes := by
  intro s
  refine ⟨rfl, ?opA, ?opB⟩
  case opA => exact congrArg s.memRead (add8_ofNat s.pc 1)
  case opB => exact congrArg s.memRead (add8_ofNat s.pc 2)

end Sys2Proof.Machine
end

section
/-! The effect of an instruction apart from its operand checks: `exec` raises for the first bad operand byte of the
table in 60_exceptions.md R162, and otherwise answers `effect`. So a frame over all instructions is a lemma about
`effect`, and the raise is argued once for all of them. -/

namespace Sys2Proof.Machine

/-- The state an instruction leaves when no operand byte it uses is above 7 (`exec_of_good`). -/
def effect (i : Instr) (s : State) : State :=
  match i with
  | .ldi a imm => (s.setReg (operandIndex a) imm).advance 3#8
  | .prn a => (s.emit (s.regAt a)).advance 2#8
  | .hlt => s.halt.advance 1#8
  | .mul a b => (s.setReg (operandIndex a) (mul8 (s.regAt a) (s.regAt b))).advance 3#8
  | .add a b => (s.setReg (operandIndex a) (add8 (s.regAt a) (s.regAt b))).advance 3#8
  | .push a => (s.decSp.memWrite s.decSp.sp (s.decSp.regAt a)).advance 2#8
  | .pop a => (s.setReg (operandIndex a) (s.memRead s.sp)).incSp.advance 2#8
  | .call a => (s.decSp.memWrite s.decSp.sp (add8 s.pc 2#8)).setPc (s.decSp.regAt a)
  | .ret => (s.setPc (s.memRead s.sp)).incSp
  | .cmp a b => (s.setFl (cmp8 (s.regAt a) (s.regAt b))).advance 3#8
  | .jmp a => s.setPc (s.regAt a)
  | .jeq a => s.setPc (if s.fl.toNat % 2 = 1 then s.regAt a else add8 s.pc 2#8)
  | .jne a => s.setPc (if s.fl.toNat % 2 = 0 then s.regAt a else add8 s.pc 2#8)

variable {i : Instr} {s : State} {b f : Byte}

/-- No operand is bad exactly when every checked one names a register (60_exceptions.md R162). -/
theorem badOperand_eq_none_iff : badOperand f i = none ↔ ∀ b ∈ checkedOperands f i, b.toNat < 8 := by
  simp [badOperand, List.find?_eq_none, Nat.lt_succ_iff]

/-- Without a bad operand an instruction has its effect. -/
theorem exec_of_good (h : badOperand s.fl i = none) : exec i s = .next (effect i s) := by
  rw [badOperand_eq_none_iff] at h
  rw [exec_eq]
  cases i with
  | ldi a | prn a | push a | pop a | call a | jmp a =>
    have ha : a.toNat < 8 := h a (by simp [checkedOperands])
    simp only [dif_pos ha, effect, State.regAt, operandIndex_of_lt ha]
  | mul a b | add a b | cmp a b =>
    have ha : a.toNat < 8 := h a (by simp [checkedOperands])
    have hb : b.toNat < 8 := h b (by simp [checkedOperands])
    simp only [dif_pos ha, dif_pos hb, effect, State.regAt, operandIndex_of_lt ha, operandIndex_of_lt hb]
  | jeq a | jne a =>
    obtain hE | hE := Nat.mod_two_eq_zero_or_one s.fl.toNat
    all_goals simp_all [checkedOperands, effect, State.regAt, State.advance, operandIndex_of_lt]
  | hlt | ret => rfl

/-- The bad operand is a checked one above 7 (60_exceptions.md R162). -/
theorem mem_checkedOperands_of_bad (h : badOperand f i = some b) : b ∈ checkedOperands f i ∧ 7 < b.toNat :=
  ⟨List.mem_of_find?_eq_some h, by simpa using List.find?_some h⟩

/-- With a bad operand an instruction raises `RegisterIndex` for it (60_exceptions.md R162 to R164). -/
theorem exec_of_bad (h : badOperand s.fl i = some b) : exec i s = .next (s.raise .registerIndex b) := by
  obtain ⟨hmem, hgt⟩ := mem_checkedOperands_of_bad h
  have hb : ¬ b.toNat < 8 := Nat.not_lt.mpr hgt
  rw [exec_eq]
  cases i with
  | ldi a | prn a | push a | pop a | call a | jmp a =>
    obtain rfl : b = a := List.mem_singleton.mp hmem
    exact dif_neg hb
  | mul a c | add a c | cmp a c =>
    rw [badOperand, checkedOperands, find_bad_two] at h
    by_cases ha : a.toNat < 8
    · obtain rfl : c = b := (by simpa [ha] using h : _ ∧ _).2
      simp only [dif_pos ha, dif_neg hb]
    · obtain rfl : a = b := by simpa [ha] using h
      exact dif_neg ha
  | jeq a =>
    obtain ⟨hE, rfl⟩ : s.fl.toNat % 2 = 1 ∧ b = a := by simpa [checkedOperands] using hmem
    simp only [if_pos hE, dif_neg hb]
  | jne a =>
    obtain ⟨hE, rfl⟩ : s.fl.toNat % 2 = 0 ∧ b = a := by simpa [checkedOperands] using hmem
    simp only [hE, Nat.zero_ne_one, if_false, dif_neg hb]
  | hlt | ret => cases hmem

/-- All that an instruction can do. -/
theorem exec_cases (i : Instr) (s : State) :
    (∃ b, badOperand s.fl i = some b ∧ exec i s = .next (s.raise .registerIndex b)) ∨
    (badOperand s.fl i = none ∧ exec i s = .next (effect i s)) := by
  cases h : badOperand s.fl i with
  | some b => exact .inl ⟨b, rfl, exec_of_bad h⟩
  | none => exact .inr ⟨rfl, exec_of_good h⟩

/-- No effect writes the fault latch (60_exceptions.md R164). -/
theorem effect_fault : (effect i s).fault = s.fault := by
  cases i <;> rfl

end Sys2Proof.Machine
end

section
/-! Who writes and who reads the flags (spec/10_state.md R25). -/

namespace Sys2Proof.Machine

/-- What of the flags byte `i` can see is the same in `f` and `g`: bit 0 for JEQ and JNE, nothing for the others. -/
def SeesSameFlags (i : Instr) (f g : Byte) : Prop :=
  (i.mnemonic ≠ .jeq ∧ i.mnemonic ≠ .jne) ∨ f.toNat % 2 = g.toNat % 2

variable {i : Instr} {s : State} {f : Byte}

/-- CMP alone writes the flags. -/
theorem effect_fl (h : i.mnemonic ≠ .cmp) : (effect i s).fl = s.fl := by
  cases i with
  | cmp => exact absurd rfl h
  | ldi | prn | hlt | mul | add | push | pop | call | ret | jmp | jeq | jne => rfl

/-- CMP overwrites the whole flags byte, so what it held before does not show. -/
theorem effect_setFl_of_cmp (h : i.mnemonic = .cmp) : effect i (s.setFl f) = effect i s := by
  cases i with
  | cmp => rfl
  | ldi | prn | hlt | mul | add | push | pop | call | ret | jmp | jeq | jne => cases h

/-- Every other instruction carries the flags byte along. -/
theorem effect_setFl (hcmp : i.mnemonic ≠ .cmp) (hf : SeesSameFlags i f s.fl) :
    effect i (s.setFl f) = (effect i s).setFl f := by
  cases i with
  | cmp => exact absurd rfl hcmp
  | jeq | jne =>
    have hE : f.toNat % 2 = s.fl.toNat % 2 := hf.resolve_left (by simp [Instr.mnemonic])
    simp only [effect, State.setFl_fl, hE]
    rfl
  | ldi | prn | hlt | mul | add | push | pop | call | ret | jmp => rfl

/-- The operand checks see no more of the flags byte than the instruction does. -/
theorem badOperand_congr_fl {g : Byte} (hf : SeesSameFlags i f g) : badOperand f i = badOperand g i := by
  cases i with
  | jeq | jne =>
    have hE : f.toNat % 2 = g.toNat % 2 := hf.resolve_left (by simp [Instr.mnemonic])
    simp only [badOperand, checkedOperands, hE]
  | ldi | prn | hlt | mul | add | push | pop | call | ret | cmp | jmp => rfl

/-- Settles O31: the operand checks come out the same with the other flags byte; a raise carries it along, and so does
every effect but CMP's, which overwrites it. -/
theorem flagsAreSeenOnlyThroughBranches : Obligations.FlagsAreSeenOnlyThroughBranches := by
  intro i s f hf
  have hbad : badOperand (s.setFl f).fl i = badOperand s.fl i := badOperand_congr_fl hf
  obtain ⟨b, hb, hs⟩ | ⟨hgood, hs⟩ := exec_cases i s
  · refine ⟨_, hs, ?_⟩
    rw [if_neg (by simp [hb])]
    exact ⟨rfl, exec_of_bad (hbad.trans hb)⟩
  · have hu : exec i { s with fl := f } = .next (effect i (s.setFl f)) := exec_of_good (hbad.trans hgood)
    refine ⟨_, hs, ?_⟩
    rw [hu]
    by_cases hcmp : i.mnemonic = .cmp
    · rw [if_pos ⟨hcmp, hgood⟩, effect_setFl_of_cmp hcmp]
    · rw [if_neg (fun h => hcmp h.1), effect_setFl hcmp hf]
      exact ⟨effect_fl hcmp, rfl⟩

end Sys2Proof.Machine
end

section
/-! Who writes the running flag (spec/10_state.md R37). -/

namespace Sys2Proof.Machine

variable {i : Instr} {s t : State}

/-- HLT alone writes the running flag, and clears it. -/
theorem effect_running : (effect i s).running = if i = .hlt then false else s.running := by
  cases i <;> rfl

/-- No effect reads the running flag. -/
theorem effect_with_running (r : Bool) :
    effect i { s with running := r } = { effect i s with running := if i = .hlt then false else r } := by
  cases i <;> rfl

/-- HLT has no operand to check. -/
theorem ne_hlt_of_badOperand {f b : Byte} (h : badOperand f i = some b) : i ≠ .hlt := by
  rintro rfl
  cases h

/-- Every instruction leaves the running flag but HLT, which clears it, and no instruction reads it. -/
theorem exec_running (i : Instr) (s : State) (r : Bool) : ∃ t, exec i s = .next t ∧
    t.running = (if i = .hlt then false else s.running) ∧
    exec i { s with running := r } = .next { t with running := if i = .hlt then false else r } := by
  obtain ⟨b, hb, hs⟩ | ⟨hgood, hs⟩ := exec_cases i s
  · have hne : i ≠ .hlt := ne_hlt_of_badOperand hb
    refine ⟨_, hs, (if_neg hne).symm, ?_⟩
    rw [if_neg hne]
    exact exec_of_bad hb
  · refine ⟨_, hs, effect_running, ?_⟩
    rw [← effect_with_running]
    exact exec_of_good hgood

/-- A step that changes the running flag executed HLT and cleared it. -/
theorem stepWith_running_ne {c : Config} (h : stepWith c s = .next t) (hne : t.running ≠ s.running) :
    decode c.opc (fetch s) = .instr .hlt ∧ s.running = true ∧ t.running = false := by
  obtain ⟨-, hs⟩ | ⟨-, ir, -, hs⟩ | ⟨hrun, i, hd, hs⟩ := stepWith_cases c s
  · cases hs.symm.trans h
    exact absurd rfl hne
  · cases hs.symm.trans h
    exact absurd rfl hne
  · obtain ⟨u, hu, hr, -⟩ := exec_running i s s.running
    cases (hs.trans hu).symm.trans h
    by_cases hi : i = .hlt
    · subst hi
      exact ⟨hd, ((State.runState_running_iff s).mp hrun).2, hr⟩
    · exact absurd (hr.trans (if_neg hi)) hne

/-- What `load` answers as a next state is the old state but for memory. -/
theorem hostLoad_eq {bytes : List Nat} (h : hostLoad bytes s = .next t) : t = { s with mem := t.mem } := by
  unfold hostLoad at h
  split at h
  · cases h
  · split at h
    · cases h
    · cases h
      exact writeFrom_eq _ _ _

/-- What `write` answers as a next state is the old state but for memory. -/
theorem hostWrite_eq {a v : Nat} (h : hostWrite a v s = .next t) : t = { s with mem := t.mem } := by
  unfold hostWrite at h
  split at h
  · cases h
  · split at h
    · cases h
    · cases h
      rfl

/-- Settles O32: `exec_running` for the instructions and the steps, and for the host that it changes memory only. -/
theorem onlyHltClearsRunning : Obligations.OnlyHltClearsRunning := by
  refine ⟨fun _ => rfl, exec_running, fun _ _ _ => stepWith_running_ne, ?host⟩
  rintro s t (⟨bytes, h⟩ | ⟨a, v, h⟩)
  · rw [hostLoad_eq h]
  · rw [hostWrite_eq h]

end Sys2Proof.Machine
end

section
/-! Who writes and who reads the registers (spec/10_state.md R31). -/

namespace Sys2Proof.Machine

variable {i : Instr} {s : State} {j k : Fin 8} {v w : Byte}

/-- Two writes to one register leave the later one, whatever the first. -/
theorem State.setReg_setReg_same : (s.setReg k v).setReg k w = s.setReg k w := by
  simp [State.setReg]

/-- Writes to two registers commute. -/
theorem State.setReg_comm (h : j ≠ k) : (s.setReg k v).setReg j w = (s.setReg j w).setReg k v := by
  simp only [State.setReg, Vector.set_comm _ _ (Fin.val_ne_of_ne h)]

/-- An operand reads past a write to another register. -/
theorem State.setReg_regAt (h : operandIndex w ≠ k) : (s.setReg k v).regAt w = s.regAt w := by
  simp [State.regAt, h]

/-- The decrement of the stack pointer sees no other register. -/
theorem State.setReg_decSp (h : k ≠ spIndex) : (s.setReg k v).decSp = s.decSp.setReg k v := by
  simp only [State.decSp, State.setReg_sp, if_neg h.symm, State.setReg_comm h.symm]

/-- The increment of the stack pointer sees no other register. -/
theorem State.setReg_incSp (h : k ≠ spIndex) : (s.setReg k v).incSp = s.incSp.setReg k v := by
  simp only [State.incSp, State.setReg_sp, if_neg h.symm, State.setReg_comm h.symm]

/-- A register outside the 'writes' column keeps its value. -/
theorem effect_reg (h : k ∉ writtenRegs i) : (effect i s).reg k = s.reg k := by
  cases i with
  | ldi a | mul a | add a =>
    have hk : k ≠ operandIndex a := by simpa [writtenRegs] using h
    simp [effect, hk]
  | push | call | ret =>
    have hk : k ≠ spIndex := by simpa [writtenRegs, spIndex] using h
    simp [effect, hk]
  | pop a =>
    have ⟨hk, hsp⟩ : k ≠ operandIndex a ∧ k ≠ spIndex := by simpa [writtenRegs, spIndex] using h
    simp [effect, hk, hsp]
  | prn | hlt | cmp | jmp | jeq | jne => rfl

/-- The value of a register outside both columns shows nowhere but in that register. -/
theorem effect_setReg (hr : k ∉ readRegs s.fl i) (hw : k ∉ writtenRegs i) :
    effect i (s.setReg k v) = (effect i s).setReg k v := by
  cases i with
  | ldi a =>
    have hk : operandIndex a ≠ k := by simpa [writtenRegs, eq_comm] using hw
    simp only [effect, State.setReg_comm hk]
    rfl
  | mul a b | add a b =>
    have ⟨ha, hb⟩ : operandIndex a ≠ k ∧ operandIndex b ≠ k := by simpa [readRegs, eq_comm] using hr
    simp only [effect, State.setReg_regAt ha, State.setReg_regAt hb, State.setReg_comm ha]
    rfl
  | cmp a b =>
    have ⟨ha, hb⟩ : operandIndex a ≠ k ∧ operandIndex b ≠ k := by simpa [readRegs, eq_comm] using hr
    simp only [effect, State.setReg_regAt ha, State.setReg_regAt hb]
    rfl
  | push a | call a =>
    have ⟨hsp, ha⟩ : k ≠ spIndex ∧ operandIndex a ≠ k := by
      simpa [readRegs, spIndex, @eq_comm _ _ k] using hr
    simp only [effect, State.setReg_decSp hsp, State.setReg_regAt ha, State.setReg_sp, if_neg hsp.symm]
    rfl
  | pop a =>
    have ⟨ha, hsp⟩ : operandIndex a ≠ k ∧ k ≠ spIndex := by
      simpa [writtenRegs, spIndex, @eq_comm _ _ k] using hw
    simp only [effect, State.setReg_memRead, State.setReg_sp, if_neg hsp.symm, State.setReg_comm ha,
      State.setReg_incSp hsp]
    rfl
  | ret =>
    have hsp : k ≠ spIndex := by simpa [writtenRegs, spIndex] using hw
    simp only [effect, State.setReg_memRead, State.setReg_sp, if_neg hsp.symm]
    exact State.setReg_incSp (s := s.setPc (s.memRead s.sp)) hsp
  | prn a | jmp a =>
    have ha : operandIndex a ≠ k := by simpa [readRegs, eq_comm] using hr
    simp only [effect, State.setReg_regAt ha]
    rfl
  | jeq a | jne a =>
    refine congrArg (s.setReg k v).setPc (ite_congr rfl (fun hE => State.setReg_regAt ?_) fun _ => rfl)
    have hE : s.fl.toNat % 2 = _ := hE
    simpa [readRegs, hE, eq_comm] using hr
  | hlt => rfl

/-- A register that is written but not read (LDI's, and POP's unless it is register 7) is overwritten. -/
theorem effect_setReg_of_written (hr : k ∉ readRegs s.fl i) (hw : k ∈ writtenRegs i) :
    effect i (s.setReg k v) = effect i s := by
  cases i with
  | ldi a =>
    obtain rfl : k = operandIndex a := by simpa [writtenRegs] using hw
    simp only [effect, State.setReg_setReg_same]
  | pop a =>
    have hsp : k ≠ spIndex := by simpa [readRegs, spIndex] using hr
    have hk : k = operandIndex a ∨ k = spIndex := by simpa [writtenRegs, spIndex] using hw
    obtain rfl := hk.resolve_right hsp
    simp only [effect, State.setReg_memRead, State.setReg_sp, if_neg hsp.symm, State.setReg_setReg_same]
  | mul | add | push | call | ret =>
    obtain rfl := List.mem_singleton.mp hw
    exact absurd List.mem_cons_self hr
  | prn | hlt | cmp | jmp | jeq | jne => cases hw

/-- With another value in a register it does not read, an instruction answers the same state if it writes the register,
and else (the raise included) the same but for that register. -/
theorem exec_setReg (hr : k ∉ readRegs s.fl i) : ∃ t, exec i s = .next t ∧ exec i (s.setReg k v) =
    .next (if k ∈ writtenRegs i ∧ badOperand s.fl i = none then t else t.setReg k v) := by
  obtain ⟨b, hb, hs⟩ | ⟨hgood, hs⟩ := exec_cases i s
  · refine ⟨_, hs, ?_⟩
    rw [if_neg (by simp [hb])]
    exact exec_of_bad hb
  · refine ⟨_, hs, ?_⟩
    rw [exec_of_good (s := s.setReg k v) hgood]
    by_cases hw : k ∈ writtenRegs i
    · rw [if_pos ⟨hw, hgood⟩, effect_setReg_of_written hr hw]
    · rw [if_neg (fun h => hw h.1), effect_setReg hr hw]

/-- Settles O35: `effect_reg` for the registers written and `exec_setReg` for those read; a raise touches none. -/
theorem registersReadAndWritten : Obligations.RegistersReadAndWritten := by
  refine ⟨fun i s => ?frame, fun i s k v hr => ?reads⟩
  case frame =>
    obtain ⟨b, hb, hs⟩ | ⟨hgood, hs⟩ := exec_cases i s
    · exact ⟨_, hs, fun _ _ => rfl⟩
    · exact ⟨_, hs, fun _ => effect_reg⟩
  case reads =>
    obtain ⟨t, hs, hu⟩ := exec_setReg (v := v) hr
    refine ⟨t, _, hs, hu, ?_⟩
    split
    · exact ⟨rfl, rfl, ⟨rfl, rfl⟩, ⟨rfl, rfl, rfl⟩, fun _ _ => rfl, rfl⟩
    · refine ⟨rfl, rfl, ⟨rfl, rfl⟩, ⟨rfl, rfl, rfl⟩, fun j hj => ?_, by simp⟩
      rw [State.setReg_reg, if_neg (by simpa using hj)]

end Sys2Proof.Machine
end

section
/-! Where the pc goes (spec/10_state.md R35). -/

namespace Sys2Proof.Machine

variable {i : Instr} {s t : State}

/-- A register read after the stack pointer's decrement: register 7 is the new stack pointer (42_stack_call.md R126). -/
theorem State.decSp_regAt {a : Byte} (h : a.toNat < 8) :
    s.decSp.regAt a = if a.toNat = 7 then sub8 s.sp 1#8 else s.regAt a := by
  simp [State.regAt, operandIndex_of_lt h, spIndex, Fin.ext_iff]

/-- Without a bad operand the effect leaves the pc of the table. -/
theorem effect_pc (h : badOperand s.fl i = none) : (effect i s).pc = pcAfter s i := by
  unfold pcAfter
  rw [h]
  cases i with
  | call a =>
    have ha : a.toNat < 8 := badOperand_eq_none_iff.mp h a (by simp [checkedOperands])
    exact State.decSp_regAt ha
  | ldi | mul | add | cmp => exact add8_pc s 3 _ rfl
  | prn | push | pop => exact add8_pc s 2 _ rfl
  | hlt => exact add8_pc s 1 _ rfl
  | ret | jmp => rfl
  | jeq | jne => exact ite_congr rfl (fun _ => rfl) fun _ => add8_pc s 2 _ rfl

/-- A step that raises leaves the pc. -/
theorem stepWith_pc_of_raise {c : Config} (hs : s.fault = .noFault) (h : stepWith c s = .next t)
    (ht : t.fault ≠ .noFault) : t.pc = s.pc := by
  obtain ⟨-, hstep⟩ | ⟨-, ir, -, hstep⟩ | ⟨-, i, -, hstep⟩ := stepWith_cases c s
  · cases hstep.symm.trans h
    rfl
  · cases hstep.symm.trans h
    rfl
  · obtain ⟨b, -, hexec⟩ | ⟨-, hexec⟩ := exec_cases i s
    · cases (hstep.trans hexec).symm.trans h
      rfl
    · cases (hstep.trans hexec).symm.trans h
      exact absurd (effect_fault.trans hs) ht

/-- Settles O36: a raise leaves the pc, and so does the table with a bad operand; else it is `effect_pc`. -/
theorem pcAfterEveryInstruction : Obligations.PcAfterEveryInstruction := by
  refine ⟨fun i s => ?_, fun _ _ _ => stepWith_pc_of_raise⟩
  obtain ⟨b, hb, hs⟩ | ⟨hgood, hs⟩ := exec_cases i s
  · refine ⟨_, hs, ?_⟩
    simp only [pcAfter, hb, State.raise_pc]
  · exact ⟨_, hs, effect_pc hgood⟩

end Sys2Proof.Machine
end

section
/-! The state after reset (spec/10_state.md R45). -/

namespace Sys2Proof.Machine

/-- Reset clears every register but the stack pointer. -/
theorem resetWith_reg {b : Byte} {k : Fin 8} (h : k ≠ 7) : (State.resetWith b).reg k = 0 := by
  have hzero : ∀ j, (State.resetWith 0).reg j = 0 := by decide
  calc (State.resetWith b).reg k = ((State.resetWith 0).setReg 7 b).reg k := rfl
    _ = 0 := by rw [State.setReg_reg, if_neg h, hzero]

/-- Settles O38: reset is a literal state; only registers 0 to 6 need an argument over the index. -/
theorem resetLeavesTheStatedValues : Obligations.ResetLeavesTheStatedValues := by
  refine ⟨fun c s => ?_, fun _ => rfl, rfl⟩
  exact ⟨fun _ => rfl, fun _ => resetWith_reg, rfl, rfl, rfl, rfl, rfl, rfl, rfl, rfl⟩

end Sys2Proof.Machine
end

section
/-! The opcode look-up (spec/30_encoding.md R83). -/

namespace Sys2Proof

/-- Under an injective map the look-up answers exactly the mnemonic that has the byte. -/
theorem decodeOpcode_eq_some {opc : OpcodeMap} (hinj : Function.Injective opc) {b : Byte} {m : Mnemonic} :
    decodeOpcode opc b = some m ↔ opc m = b := by
  constructor
  · exact opc_of_decodeOpcode
  · rintro rfl
    exact decodeOpcode_opc hinj m

/-- Settles O6: the two answers of the look-up, the first by the injectivity of `OPC`. -/
theorem byteDecodesExactlyWhenMapped : Obligations.ByteDecodesExactlyWhenMapped :=
  fun c _ => ⟨fun _ => decodeOpcode_eq_some c.opc_injective, decodeOpcode_eq_none⟩

end Sys2Proof
end

section
/-! The run loop (spec/30_encoding.md R85, spec/70_reset_and_hazards.md R185). -/

namespace Sys2Proof.Machine

variable {c : Config} {s u : State} {e : RunEnd} {n : Nat}

/-- An iteration in RUNNING is one step. -/
theorem runFor_succ_of_running (h : s.runState = .running) :
    runFor c (n + 1) s = .next u ↔ ∃ t, stepWith c s = .next t ∧ runFor c n t = .next u := by
  rw [runFor, h]
  cases stepWith c s <;> simp

/-- The loop does nothing on a stopped unit. -/
theorem runFor_of_stopped (h : s.runState ≠ .running) : runFor c n s = .next s := by
  cases n with
  | zero => rfl
  | succ n =>
    rw [runFor]
    cases hr : s.runState with
    | running => exact absurd hr h
    | halted | faulted => rfl

/-- A RUNNING state ends no run. -/
theorem State.runEnd_of_running (h : s.runState = .running) : s.runEnd = none := by
  obtain ⟨hf, hr⟩ := s.runState_running_iff.mp h
  simp [State.runEnd, State.surfacedError, hf, hr]

/-- HALTED ends a run with success. -/
theorem State.runEnd_of_halted (h : s.runState = .halted) : s.runEnd = some (.success s) := by
  obtain ⟨hf, hr⟩ := s.runState_halted_iff.mp h
  simp [State.runEnd, State.surfacedError, hf, hr]

/-- FAULTED surfaces an error. -/
theorem State.surfacedError_of_faulted (h : s.runState = .faulted) : ∃ err, s.surfacedError = some err := by
  have hf := s.runState_faulted_iff.mp h
  unfold State.surfacedError
  cases hc : s.fault with
  | noFault => exact absurd hc hf
  | illegalInstruction | registerIndex => exact ⟨_, rfl⟩

/-- A surfaced error ends a run with failure. -/
theorem State.runEnd_of_error {err : Fault} (h : s.surfacedError = some err) :
    s.runEnd = some (.failure s err) := by
  simp [State.runEnd, h]

/-- From RUNNING, `run()` returns what it returns after one step. -/
theorem runReturns_of_running (h : s.runState = .running) :
    RunReturns c s e ↔ ∃ t, stepWith c s = .next t ∧ RunReturns c t e := by
  constructor
  · rintro ⟨n, u, hn, he⟩
    cases n with
    | zero =>
      cases hn
      cases (State.runEnd_of_running h).symm.trans he
    | succ n =>
      obtain ⟨t, hst, ht⟩ := (runFor_succ_of_running h).mp hn
      exact ⟨t, hst, n, u, ht, he⟩
  · rintro ⟨t, hst, n, u, ht, he⟩
    exact ⟨n + 1, u, (runFor_succ_of_running h).mpr ⟨t, hst, ht⟩, he⟩

/-- On a stopped unit `run()` returns at once. -/
theorem runReturns_of_stopped (h : s.runState ≠ .running) : RunReturns c s e ↔ s.runEnd = some e := by
  constructor
  · rintro ⟨n, u, hn, he⟩
    cases (runFor_of_stopped h).symm.trans hn
    exact he
  · exact fun he => ⟨0, s, rfl, he⟩

/-- From a RUNNING state whose step answers that state again, `run()` never returns. -/
theorem not_runReturns_of_fixed (h : s.runState = .running) (hst : stepWith c s = .next s) : ¬ RunReturns c s e := by
  have hloop : ∀ n, runFor c n s = .next s := by
    intro n
    induction n with
    | zero => rfl
    | succ n ih => exact (runFor_succ_of_running h).mpr ⟨s, hst, ih⟩
  rintro ⟨n, u, hn, he⟩
  cases (hloop n).symm.trans hn
  cases (State.runEnd_of_running h).symm.trans he

/-- A unit at address 0 whose next instruction is `JMP R0`, with 0 in R0 (43_compare_branch.md R141). -/
def selfJump : State := placeInstruction State.reset ⟨defaultOpc .jmp, 0, 0⟩

/-- The jump leads back to the state it is taken in. -/
theorem stepWith_selfJump : stepWith defaultConfig selfJump = .next selfJump := rfl

/-- Settles O49: RUNNING by one iteration of the loop, HALTED and FAULTED by how the state itself ends a run, and the
endless run by a jump to itself. -/
theorem runRepeatsTheStep : Obligations.RunRepeatsTheStep := by
  refine ⟨fun _ _ _ => runReturns_of_running, ?halted, ?faulted, ?endless⟩
  case halted =>
    intro c s e h
    rw [runReturns_of_stopped (by simp [h]), State.runEnd_of_halted h, Option.some_inj, eq_comm]
  case faulted =>
    intro c s e h
    obtain ⟨err, herr⟩ := State.surfacedError_of_faulted h
    rw [runReturns_of_stopped (by simp [h]), State.runEnd_of_error herr]
    simp [herr, eq_comm]
  case endless =>
    exact ⟨defaultConfig, selfJump, rfl, fun _ => not_runReturns_of_fixed rfl stepWith_selfJump⟩

end Sys2Proof.Machine
end

section
/-! The step cycle (spec/30_encoding.md R82, spec/70_reset_and_hazards.md R184). -/

namespace Sys2Proof.Machine

variable {c : Config} {s : State}

/-- A RUNNING unit executes the instruction its three bytes decode to. -/
theorem stepWith_of_instr {i : Instr} (h : s.runState = .running) (hd : decode c.opc (fetch s) = .instr i) :
    stepWith c s = exec i s := by
  rw [stepWith_of_running h, fetchDecodeExecute, hd]

/-- A RUNNING unit whose bytes decode to nothing raises `IllegalInstruction` (60_exceptions.md R161). -/
theorem stepWith_of_illegal {ir : Byte} (h : s.runState = .running)
    (hd : decode c.opc (fetch s) = .illegalInstruction ir) : stepWith c s = .next (s.raise .illegalInstruction ir) := by
  rw [stepWith_of_running h, fetchDecodeExecute, hd]

/-- The byte a rejection names is the first one fetched. -/
theorem ir_of_decode_illegal {opc : OpcodeMap} {f : FetchedBytes} {ir : Byte}
    (h : decode opc f = .illegalInstruction ir) : ir = f.ir := by
  obtain ⟨m, -, hd⟩ | ⟨-, hd⟩ := decode_cases opc f
  · cases hd.symm.trans h
  · cases hd.symm.trans h
    rfl

/-- Settles O2: RUNNING by what the fetched bytes decode to, stopped by `stepWith_of_stopped`. -/
theorem stepRunsTheDecodedInstruction : Obligations.StepRunsTheDecodedInstruction := by
  refine ⟨fun s i hr hf hd => ?_, fun c s hr hf => ?_, fun c s h => stepWith_of_stopped ?_⟩
  · exact stepWith_of_instr (s.runState_running_iff.mpr ⟨hf, hr⟩) hd
  · have hrun := s.runState_running_iff.mpr ⟨hf, hr⟩
    split
    next i hd => exact stepWith_of_instr hrun hd
    next ir hd => exact ⟨ir_of_decode_illegal hd, stepWith_of_illegal hrun hd⟩
  · rw [ne_eq, s.runState_running_iff]
    rintro ⟨hf, hr⟩
    simp [hf, hr] at h

end Sys2Proof.Machine
end

section
/-! Who writes the output (spec/10_state.md section 7). -/

namespace Sys2Proof.Machine

variable {i : Instr} {s : State}

/-- Without a bad operand the effect appends what the table names. -/
theorem effect_out (h : badOperand s.fl i = none) : (effect i s).out = s.out ++ emitted s i := by
  cases i with
  | prn a =>
    have ha : a.toNat < 8 := badOperand_eq_none_iff.mp h a (by simp [checkedOperands])
    simp [effect, emitted, ha]
  | ldi | hlt | mul | add | push | pop | call | ret | cmp | jmp | jeq | jne => exact (List.append_nil _).symm

/-- An instruction that raises emits nothing: of those that can raise only PRN emits, and it checks its operand first
(40_move_io_halt.md R101). -/
theorem emitted_of_bad {b : Byte} (h : badOperand s.fl i = some b) : emitted s i = [] := by
  obtain ⟨hmem, hgt⟩ := mem_checkedOperands_of_bad h
  cases i with
  | prn a =>
    obtain rfl : b = a := List.mem_singleton.mp hmem
    exact if_neg (Nat.not_lt.mpr hgt)
  | ldi | hlt | mul | add | push | pop | call | ret | cmp | jmp | jeq | jne => rfl

/-- Settles O34: a raise leaves the output, and so does the table with a bad operand; else it is `effect_out`. -/
theorem onlyPrnEmits : Obligations.OnlyPrnEmits := by
  intro i s
  obtain ⟨b, hb, hs⟩ | ⟨hgood, hs⟩ := exec_cases i s
  · refine ⟨_, hs, ?_⟩
    rw [emitted_of_bad hb, List.append_nil, State.raise_out]
  · exact ⟨_, hs, effect_out hgood⟩

end Sys2Proof.Machine
end

section
/-! LDI, PRN and HLT (spec/40_move_io_halt.md R100 to R102). The two lemmas before them serve every instruction that
checks a single operand byte. -/

namespace Sys2Proof.Machine

variable {i : Instr} {s : State} {a : Byte}

/-- An instruction whose only checked operand names a register has its effect. -/
theorem exec_of_single_lt (hc : checkedOperands s.fl i = [a]) (h : a.toNat < 8) : exec i s = .next (effect i s) :=
  exec_of_good (badOperand_eq_none_iff.mpr (by simpa [hc] using h))

/-- An instruction whose only checked operand is above 7 raises `RegisterIndex` for it (60_exceptions.md R162). -/
theorem exec_of_single_gt (hc : checkedOperands s.fl i = [a]) (h : 7 < a.toNat) :
    exec i s = .next (s.raise .registerIndex a) :=
  exec_of_bad (by simp [badOperand, hc, h])

/-- Settles O11: the effect writes the named register, `effect_reg` keeps the others, and the raise is that of the
operand check. -/
theorem ldiLoadsItsLiteral : Obligations.LdiLoadsItsLiteral := by
  refine ⟨fun _ _ _ => rfl, fun a imm s h => ?_, fun _ _ _ h => exec_of_single_gt rfl h⟩
  rw [← operandIndex_of_lt h]
  have hreg : (effect (.ldi a imm) s).reg (operandIndex a) = imm := by simp [effect]
  exact ⟨_, exec_of_single_lt rfl h, hreg, fun _ => effect_reg (i := .ldi a imm),
    add8_toNat s.pc 3#8, fun _ => rfl, ⟨rfl, rfl⟩, rfl, rfl, rfl⟩

/-- Settles O12: the effect appends the named register's byte, and the raise, that of the operand check, appends
nothing. -/
theorem prnEmitsItsRegister : Obligations.PrnEmitsItsRegister := by
  refine ⟨fun _ _ => rfl, fun a s h => ?_, fun _ _ h => exec_of_single_gt rfl h⟩
  rw [← operandIndex_of_lt h]
  exact ⟨_, exec_of_single_lt rfl h, rfl, fun _ => rfl, add8_toNat s.pc 2#8, fun _ => rfl, rfl, rfl, rfl, rfl⟩

/-- HLT leaves a unit without a latched fault HALTED (10_state.md R39). -/
theorem effect_hlt_runState (h : s.fault = .noFault) : (effect .hlt s).runState = .halted :=
  (State.runState_halted_iff _).mpr ⟨effect_fault.trans h, effect_running⟩

/-- Settles O13: HLT has no operand to check, and a HALTED unit's step is `stepWith_of_stopped`. -/
theorem hltStopsTheUnit : Obligations.HltStopsTheUnit := by
  refine ⟨fun _ => rfl, fun c s => ⟨effect .hlt s, exec_of_good rfl, effect_running, add8_toNat s.pc 1#8,
    fun _ => rfl, fun _ => rfl, ⟨rfl, rfl⟩, rfl, rfl, fun hf => ?_⟩⟩
  have hhalted : (effect .hlt s).runState = .halted := effect_hlt_runState hf
  exact ⟨hhalted, stepWith_of_stopped (by simp [hhalted])⟩

end Sys2Proof.Machine
end

section
/-! The arithmetic primitives over the integers (spec/00_scope.md R7, spec/41_alu.md R112). -/

namespace Sys2Proof.Machine

/-- Settles O24: the sum and the product are so by their laws; the difference there carries an added 256, which keeps
it a natural number and is nothing modulo 256. -/
theorem arithmeticWrapsModulo256 : Obligations.ArithmeticWrapsModulo256 := by
  intro a b
  refine ⟨add8_toNat a b, ?diff, mul8_toNat a b⟩
  case diff =>
    have hb : b.toNat < 256 := b.isLt
    rw [sub8_toNat]
    omega

end Sys2Proof.Machine
end

section
/-! MUL and ADD (spec/41_alu.md R110, R111). The three lemmas on a pair of operands serve every instruction that checks
two operand bytes. -/

namespace Sys2Proof.Machine

variable {i : Instr} {s : State} {a b : Byte}

/-- An instruction whose two checked operands both name a register has its effect. -/
theorem exec_of_pair_lt (hc : checkedOperands s.fl i = [a, b]) (ha : a.toNat < 8) (hb : b.toNat < 8) :
    exec i s = .next (effect i s) :=
  exec_of_good (badOperand_eq_none_iff.mpr (by simp [hc, ha, hb]))

/-- The first operand is checked first: above 7 it is the one raised for, whatever the second (60_exceptions.md R163). -/
theorem exec_of_pair_gt_left (hc : checkedOperands s.fl i = [a, b]) (ha : 7 < a.toNat) :
    exec i s = .next (s.raise .registerIndex a) :=
  exec_of_bad (by simp [badOperand, hc, ha])

/-- The second operand is raised for when the first names a register (60_exceptions.md R163). -/
theorem exec_of_pair_gt_right (hc : checkedOperands s.fl i = [a, b]) (ha : a.toNat < 8) (hb : 7 < b.toNat) :
    exec i s = .next (s.raise .registerIndex b) :=
  exec_of_bad (by rw [badOperand, hc, find_bad_two, if_pos ha, if_neg (Nat.not_lt.mpr hb)])

/-- All else that MUL and ADD do, whatever the result `v` they write: the pc passes the three bytes. -/
theorem setReg_advance_frame (s : State) (k : Fin 8) (v : Byte) {t : State} (ht : t = (s.setReg k v).advance 3#8) :
    SameRegsBut [k] s t ∧ t.pc.toNat = (s.pc.toNat + 3) % 256 ∧ SameMemory s t ∧ SameFlagsOut s t ∧
    SameControl s t := by
  subst ht
  refine ⟨fun j hj => ?regs, add8_toNat s.pc 3#8, fun _ => rfl, ⟨rfl, rfl⟩, rfl, rfl, rfl⟩
  case regs => rw [State.advance_reg, State.setReg_reg, if_neg (List.ne_of_not_mem_cons hj)]

/-- Settles O14: the effect writes the product, with the frame of `setReg_advance_frame`; the raises are those of the
operand checks. -/
theorem mulKeepsTheLowByte : Obligations.MulKeepsTheLowByte := by
  refine ⟨fun _ _ _ => rfl, fun a b s ha hb => ?_, fun _ _ _ => exec_of_pair_gt_left rfl,
    fun _ _ _ => exec_of_pair_gt_right rfl⟩
  rw [← operandIndex_of_lt ha, ← operandIndex_of_lt hb]
  have hreg : (effect (.mul a b) s).reg (operandIndex a) = mul8 (s.regAt a) (s.regAt b) := by simp [effect]
  exact ⟨_, exec_of_pair_lt rfl ha hb, hreg ▸ mul8_toNat _ _, setReg_advance_frame s _ _ rfl⟩

/-- Settles O15: the effect writes the sum, with the frame of `setReg_advance_frame`; the raises are those of the
operand checks. -/
theorem addWraps : Obligations.AddWraps := by
  refine ⟨fun _ _ _ => rfl, fun a b s ha hb => ?_, fun _ _ _ => exec_of_pair_gt_left rfl,
    fun _ _ _ => exec_of_pair_gt_right rfl⟩
  rw [← operandIndex_of_lt ha, ← operandIndex_of_lt hb]
  have hreg : (effect (.add a b) s).reg (operandIndex a) = add8 (s.regAt a) (s.regAt b) := by simp [effect]
  exact ⟨_, exec_of_pair_lt rfl ha hb, hreg ▸ add8_toNat _ _, setReg_advance_frame s _ _ rfl⟩

end Sys2Proof.Machine
end

section
/-! PUSH, POP, CALL and RET (spec/42_stack_call.md R120 to R123). -/

namespace Sys2Proof.Machine

variable {a : Byte} {s : State}

/-- The stack pointer of PUSH and CALL, one below modulo 256 (10_state.md R26). -/
theorem State.decSp_sp_toNat (s : State) : s.decSp.sp.toNat = (s.sp.toNat + 255) % 256 := by
  rw [State.decSp_sp, sub8_toNat]
  rfl

/-- The stack pointer of POP and RET, one above modulo 256 (10_state.md R26). -/
theorem State.incSp_sp_toNat (s : State) : s.incSp.sp.toNat = (s.sp.toNat + 1) % 256 := by
  rw [State.incSp_sp, add8_toNat]
  rfl

/-- After the store of PUSH and CALL the cell at the new stack pointer holds the stored byte `v`, and the others are as
before (20_memory.md R51). -/
theorem State.decSp_memWrite_memRead (s : State) (v w : Byte) :
    (s.decSp.memWrite s.decSp.sp v).memRead w = if w = sub8 s.sp 1#8 then v else s.memRead w := by
  rw [State.memWrite_memRead, State.decSp_sp, State.decSp_memRead]

/-- The cell at the new stack pointer after the store of PUSH and CALL. -/
theorem State.decSp_memWrite_memRead_top (s : State) (v : Byte) :
    (s.decSp.memWrite s.decSp.sp v).memRead (sub8 s.sp 1#8) = v :=
  (s.decSp_memWrite_memRead v _).trans (if_pos rfl)

/-- The memory frame of PUSH and CALL. -/
theorem State.decSp_memWrite_sameMemoryBut (s : State) (v : Byte) :
    SameMemoryBut (sub8 s.sp 1#8) s (s.decSp.memWrite s.decSp.sp v) :=
  fun w hw => (s.decSp_memWrite_memRead v w).trans (if_neg hw)

/-- Settles O16: the store is at the decremented stack pointer, `decSp_regAt` is the register read after the decrement,
and the raise of the operand check comes before both. -/
theorem pushStoresBelowTheStack : Obligations.PushStoresBelowTheStack := by
  refine ⟨fun _ _ => rfl, fun a s h => ?_, fun _ _ h => exec_of_single_gt rfl h⟩
  rw [← operandIndex_of_lt h]
  have hcell : (effect (.push a) s).memRead (sub8 s.sp 1#8) = if a.toNat = 7 then sub8 s.sp 1#8 else s.regAt a :=
    (s.decSp_memWrite_memRead_top _).trans (State.decSp_regAt h)
  exact ⟨_, exec_of_single_lt rfl h, s.decSp_sp_toNat, s.decSp_sp, hcell, s.decSp_memWrite_sameMemoryBut _,
    fun _ => effect_reg (i := .push a), add8_toNat s.pc 2#8, ⟨rfl, rfl⟩, rfl, rfl, rfl⟩

/-- An operand byte names the stack pointer exactly when it is 7 (10_state.md R32). -/
theorem operandIndex_eq_spIndex_iff (h : a.toNat < 8) : operandIndex a = spIndex ↔ a.toNat = 7 := by
  simp [operandIndex_of_lt h, spIndex, Fin.ext_iff]

/-- POP's register holds the popped byte, unless the increment then writes it too (42_stack_call.md R125). -/
theorem effect_pop_reg (h : a.toNat < 8) (hne : a.toNat ≠ 7) :
    (effect (.pop a) s).reg (operandIndex a) = s.memRead s.sp := by
  have hsp : operandIndex a ≠ spIndex := (operandIndex_eq_spIndex_iff h).not.mpr hne
  simp [effect, hsp]

/-- POP increments the stack pointer it has, which for register 7 is the popped byte (42_stack_call.md R125). -/
theorem effect_pop_sp (h : a.toNat < 8) :
    (effect (.pop a) s).sp.toNat = ((if a.toNat = 7 then s.memRead s.sp else s.sp).toNat + 1) % 256 := by
  have hold : (s.setReg (operandIndex a) (s.memRead s.sp)).sp = if a.toNat = 7 then s.memRead s.sp else s.sp := by
    simp only [State.setReg_sp, @eq_comm _ spIndex, operandIndex_eq_spIndex_iff h]
  rw [← hold]
  exact State.incSp_sp_toNat _

/-- Settles O17: `effect_pop_reg` and `effect_pop_sp`; `effect_reg` keeps the other registers, and the raise is that of
the operand check. -/
theorem popLoadsFromTheStack : Obligations.PopLoadsFromTheStack := by
  refine ⟨fun _ _ => rfl, fun a s h => ?_, fun _ _ h => exec_of_single_gt rfl h⟩
  rw [← operandIndex_of_lt h]
  exact ⟨_, exec_of_single_lt rfl h, effect_pop_reg h, effect_pop_sp h, fun _ => effect_reg (i := .pop a),
    add8_toNat s.pc 2#8, fun _ => rfl, ⟨rfl, rfl⟩, rfl, rfl, rfl⟩

/-- Settles O18: the return address is stored as PUSH stores its byte, `decSp_regAt` is the target read after the
decrement, and the raise of the operand check comes before both. -/
theorem callStoresTheReturnAddress : Obligations.CallStoresTheReturnAddress := by
  refine ⟨fun _ _ => rfl, fun a s h => ?_, fun _ _ h => exec_of_single_gt rfl h⟩
  rw [← operandIndex_of_lt h]
  have hcell : (effect (.call a) s).memRead (sub8 s.sp 1#8) = add8 s.pc 2#8 := s.decSp_memWrite_memRead_top _
  exact ⟨_, exec_of_single_lt rfl h, s.decSp_sp_toNat, s.decSp_sp, hcell ▸ add8_toNat s.pc 2#8, State.decSp_regAt h,
    s.decSp_memWrite_sameMemoryBut _, fun _ => effect_reg (i := .call a), ⟨rfl, rfl⟩, rfl, rfl, rfl⟩

/-- Settles O19: RET has no operand to check; it sets the pc and increments the stack pointer, and `effect_reg` keeps
the other registers. -/
theorem retPopsThePc : Obligations.RetPopsThePc :=
  ⟨fun _ => rfl, fun s => ⟨effect .ret s, exec_of_good rfl, rfl, s.incSp_sp_toNat, fun _ => effect_reg (i := .ret),
    fun _ => rfl, ⟨rfl, rfl⟩, rfl, rfl, rfl⟩⟩

end Sys2Proof.Machine
end

section
/-! CMP, JMP, JEQ and JNE (spec/43_compare_branch.md R140 to R143). A jump, conditional or not, is `exec_of_taken` where
it is taken and `exec_of_untaken` where it is not; only the condition differs. -/

namespace Sys2Proof.Machine

/-- The comparison in the words of the rule, on the bytes' values (43_compare_branch.md R140). -/
theorem cmp8_eq_ite_toNat (a b : Byte) : cmp8 a b =
    if a.toNat = b.toNat then 0b00000001 else if a.toNat > b.toNat then 0b00000010 else 0b00000100 := by
  simp only [cmp8, BitVec.toNat_inj, gt_iff_lt]

/-- Settles O20: the effect writes the flags byte of `cmp8_eq_ite_toNat` and passes the three bytes; the raises are
those of the operand checks, the first operand's first. -/
theorem cmpSetsOneFlag : Obligations.CmpSetsOneFlag := by
  refine ⟨fun _ _ _ => rfl, fun a b s ha hb => ?_, fun _ _ _ => exec_of_pair_gt_left rfl,
    fun _ _ _ => exec_of_pair_gt_right rfl⟩
  rw [← operandIndex_of_lt ha, ← operandIndex_of_lt hb]
  exact ⟨_, exec_of_pair_lt rfl ha hb, cmp8_eq_ite_toNat _ _, fun _ => rfl, add8_toNat s.pc 3#8, fun _ => rfl, rfl,
    rfl, rfl, rfl⟩

variable {i : Instr} {s : State} {a : Byte}

/-- All else that a jump leaves as it was, taken or not: it writes the pc alone (10_state.md R35). -/
theorem setPc_frame (s : State) (p : Byte) :
    SameRegs s (s.setPc p) ∧ SameMemory s (s.setPc p) ∧ SameFlagsOut s (s.setPc p) ∧ SameControl s (s.setPc p) :=
  ⟨fun _ => rfl, fun _ => rfl, ⟨rfl, rfl⟩, rfl, rfl, rfl⟩

/-- A taken jump checks its operand and leaves the pc at the register it names (43_compare_branch.md R141). -/
theorem exec_of_taken (h : a.toNat < 8) (hc : checkedOperands s.fl i = [a]) (he : effect i s = s.setPc (s.regAt a)) :
    ∃ t, exec i s = .next t ∧ t.pc = s.reg ⟨a.toNat, h⟩ ∧ SameRegs s t ∧ SameMemory s t ∧ SameFlagsOut s t ∧
      SameControl s t := by
  have hexec : exec i s = .next (s.setPc (s.regAt a)) := he ▸ exec_of_single_lt hc h
  rw [← operandIndex_of_lt h]
  exact ⟨_, hexec, rfl, setPc_frame s _⟩

/-- A jump that is not taken checks no operand and passes its two bytes (43_compare_branch.md R142, R143). -/
theorem exec_of_untaken (hc : checkedOperands s.fl i = []) (he : effect i s = s.advance 2#8) :
    ∃ t, exec i s = .next t ∧ t.pc.toNat = (s.pc.toNat + 2) % 256 ∧ SameRegs s t ∧ SameMemory s t ∧
      SameFlagsOut s t ∧ SameControl s t := by
  have hexec : exec i s = .next (s.advance 2#8) := he ▸ exec_of_good (by simp [badOperand, hc])
  exact ⟨_, hexec, add8_toNat s.pc 2#8, setPc_frame s _⟩

/-- Settles O21: JMP is always taken, and the raise is that of the operand check. -/
theorem jmpLoadsThePc : Obligations.JmpLoadsThePc :=
  ⟨fun _ _ => rfl, fun _ _ h => exec_of_taken h rfl rfl, fun _ _ => exec_of_single_gt rfl⟩

/-- Settles O22: with bit E set the operand is checked and JEQ is taken, with bit E clear neither. -/
theorem jeqBranchesOnEqual : Obligations.JeqBranchesOnEqual := by
  refine ⟨fun _ _ => rfl, fun a s h hE => ?taken, fun a s hE => ?untaken, fun a s h hE => ?raise⟩
  case taken => exact exec_of_taken h (if_pos hE) (congrArg s.setPc (if_pos hE))
  case untaken =>
    have hclear : s.fl.toNat % 2 ≠ 1 := by omega
    exact exec_of_untaken (if_neg hclear) (congrArg s.setPc (if_neg hclear))
  case raise => exact exec_of_single_gt (if_pos hE) h

/-- Settles O23: with bit E clear the operand is checked and JNE is taken, with bit E set neither. -/
theorem jneBranchesOnNotEqual : Obligations.JneBranchesOnNotEqual := by
  refine ⟨fun _ _ => rfl, fun a s h hE => ?taken, fun a s hE => ?untaken, fun a s h hE => ?raise⟩
  case taken => exact exec_of_taken h (if_pos hE) (congrArg s.setPc (if_pos hE))
  case untaken =>
    have hset : s.fl.toNat % 2 ≠ 0 := by omega
    exact exec_of_untaken (if_neg hset) (congrArg s.setPc (if_neg hset))
  case raise => exact exec_of_single_gt (if_pos hE) h

end Sys2Proof.Machine
end

section
/-! The two faults: which one a step raises and what raising leaves as it was (spec/60_exceptions.md R161 to R164).
`raise` is the model's name of the statements' `Latched`. -/

namespace Sys2Proof.Machine

variable {c : Config} {i : Instr} {s t : State}

/-- No effect writes the information byte beside the latch (60_exceptions.md R164). -/
theorem effect_faultInfo : (effect i s).faultInfo = s.faultInfo := by
  cases i <;> rfl

/-- Settles O25: `exec_cases`, and the effect keeps the latch. -/
theorem checkedOperandsDecideTheFault : Obligations.CheckedOperandsDecideTheFault := by
  intro i s
  obtain ⟨b, hb, hexec⟩ | ⟨hgood, hexec⟩ := exec_cases i s
  · rw [hb]
    exact hexec
  · rw [hgood]
    exact ⟨_, hexec, effect_fault, effect_faultInfo⟩

/-- The first check is decode: a byte that is no opcode names the latch, whatever its operand bytes. -/
theorem expectedLatch_of_illegal {ir : Byte} (hd : decode c.opc (fetch s) = .illegalInstruction ir) :
    expectedLatch c s = (.illegalInstruction, ir) := by
  rw [expectedLatch, hd]

/-- Past decode, a bad operand names the latch. -/
theorem expectedLatch_of_bad {b : Byte} (hd : decode c.opc (fetch s) = .instr i) (hb : badOperand s.fl i = some b) :
    expectedLatch c s = (.registerIndex, b) := by
  simp only [expectedLatch, hd, hb]

/-- When no check fails the latch is the one before the step. -/
theorem expectedLatch_of_good (hd : decode c.opc (fetch s) = .instr i) (hgood : badOperand s.fl i = none) :
    expectedLatch c s = (s.fault, s.faultInfo) := by
  simp only [expectedLatch, hd, hgood]

/-- Settles O26: one case for each check that can fail first, and one for none. -/
theorem firstFailingCheckIsReported : Obligations.FirstFailingCheckIsReported := by
  intro c s hrun
  obtain ⟨hstop, -⟩ | ⟨-, ir, hd, hstep⟩ | ⟨-, i, hd, hstep⟩ := stepWith_cases c s
  · exact absurd hrun hstop
  · exact ⟨_, hstep, (expectedLatch_of_illegal hd).symm⟩
  · obtain ⟨b, hb, hexec⟩ | ⟨hgood, hexec⟩ := exec_cases i s
    · exact ⟨_, hstep.trans hexec, (expectedLatch_of_bad hd hb).symm⟩
    · refine ⟨_, hstep.trans hexec, ?_⟩
      rw [expectedLatch_of_good hd hgood, effect_fault, effect_faultInfo]

/-- A step that raises is a raise on a RUNNING unit, and nothing more. -/
theorem stepWith_eq_raise (hs : s.fault = .noFault) (h : stepWith c s = .next t) (ht : t.fault ≠ .noFault) :
    s.runState = .running ∧ t = s.raise t.fault t.faultInfo := by
  obtain ⟨-, hstep⟩ | ⟨hrun, ir, -, hstep⟩ | ⟨hrun, i, -, hstep⟩ := stepWith_cases c s
  · cases hstep.symm.trans h
    exact absurd hs ht
  · cases hstep.symm.trans h
    exact ⟨hrun, rfl⟩
  · obtain ⟨b, -, hexec⟩ | ⟨-, hexec⟩ := exec_cases i s
    · cases (hstep.trans hexec).symm.trans h
      exact ⟨hrun, rfl⟩
    · cases (hstep.trans hexec).symm.trans h
      exact absurd (effect_fault.trans hs) ht

/-- Settles O27: `stepWith_eq_raise`, and a raise keeps all but the latch and its information byte. -/
theorem faultingStepIsPrecise : Obligations.FaultingStepIsPrecise := by
  intro c s t hs h ht
  obtain ⟨hrun, hraise⟩ := stepWith_eq_raise hs h ht
  have hrunning : s.running = true := (s.runState_running_iff.mp hrun).2
  refine ⟨hraise, ?_⟩
  rw [hraise]
  exact ⟨hrunning, rfl, fun _ => rfl, fun _ => rfl, rfl, rfl⟩

/-- A byte that no mnemonic has is rejected by name (30_encoding.md R80). -/
theorem decode_of_unmapped {opc : OpcodeMap} {f : FetchedBytes} (h : ∀ m, opc m ≠ f.ir) :
    decode opc f = .illegalInstruction f.ir := by
  obtain ⟨m, hm, -⟩ | ⟨-, hd⟩ := decode_cases opc f
  · exact absurd (opc_of_decodeOpcode hm) (h m)
  · exact hd

/-- Settles O3: the byte at the pc is rejected at decode, and a RUNNING unit raises for it. -/
theorem illegalOpcodeTakesTheFault : Obligations.IllegalOpcodeTakesTheFault :=
  fun _ _ hrun hnone => stepWith_of_illegal hrun (decode_of_unmapped hnone)

end Sys2Proof.Machine
end

section
/-! Reset, `load`, `read`, `write` and `step()` (spec/70_reset_and_hazards.md R182 to R189). -/

namespace Sys2Proof.Machine

variable {s t : State} {bytes : List Nat} {a v : Nat}

/-- Settles O4: RUNNING by `stepWith_of_running`, HALTED and FAULTED by `stepWith_of_stopped`. -/
theorem stepDoesNothingWhenStopped : Obligations.StepDoesNothingWhenStopped := by
  refine fun c s => ⟨stepWith_of_running, fun h => stepWith_of_stopped ?_⟩
  obtain h | h := h <;> simp [h]

/-- A state that differs in memory only has the registers, pc, flags, output and control of the old one. -/
theorem frame_of_mem_only (h : t = { s with mem := t.mem }) :
    SameRegs s t ∧ t.pc = s.pc ∧ SameFlagsOut s t ∧ SameControl s t := by
  rw [h]
  exact ⟨fun _ => rfl, rfl, ⟨rfl, rfl⟩, rfl, rfl, rfl⟩

/-- The run state is a function of the latch and the running flag (10_state.md R39). -/
theorem runState_of_sameControl (h : SameControl s t) : t.runState = s.runState := by
  obtain ⟨hrunning, hfault, -⟩ := h
  simp only [State.runState, hrunning, hfault]

/-- Settles O30: a stopped unit's step is the unchanged state, the host's `load` and `write` change memory only, and
reset sets the latch and the running flag. -/
theorem onlyResetLeavesAStop : Obligations.OnlyResetLeavesAStop := by
  refine ⟨fun c s t hstop hact => ?_, fun c s => (State.runState_running_iff _).mpr ⟨rfl, rfl⟩⟩
  have hmem : t = { s with mem := t.mem } := by
    obtain hstep | ⟨bytes, hload⟩ | ⟨a, v, hwrite⟩ := hact
    · cases (stepWith_of_stopped hstop).symm.trans hstep
      rfl
    · exact hostLoad_eq hload
    · exact hostWrite_eq hwrite
  obtain ⟨-, hpc, -, hcontrol⟩ := frame_of_mem_only hmem
  have hrun : t.runState = s.runState := runState_of_sameControl hcontrol
  obtain ⟨hrunning, hfault, hinfo⟩ := hcontrol
  exact ⟨hrun, hfault, hinfo, hrunning, hpc⟩

/-- `load` of legal data writes it from `LOAD_BASE` upward (R186). -/
theorem hostLoad_of_legal (hlen : bytes.length ≤ 256) (hval : ∀ v ∈ bytes, v ≤ 255) :
    hostLoad bytes s = .next (writeFrom loadBase bytes s) := by
  have hnone : (bytes.find? fun v => decide (255 < v)) = none := by
    simpa [List.find?_eq_none] using hval
  rw [hostLoad, if_neg (Nat.not_lt.mpr hlen), hnone]

/-- `load` of too many values or of a value too wide is refused (R189). -/
theorem hostLoad_of_illegal (h : 256 < bytes.length ∨ ∃ v ∈ bytes, 255 < v) : ∃ r, hostLoad bytes s = .refused r := by
  unfold hostLoad
  split
  next => exact ⟨_, rfl⟩
  next hlen =>
    obtain ⟨w, hw⟩ : ∃ w, (bytes.find? fun v => decide (255 < v)) = some w :=
      Option.isSome_iff_exists.mp (by simpa using h.resolve_left hlen)
    rw [hw]
    exact ⟨_, rfl⟩

/-- `write` of legal data is one store (R188). -/
theorem hostWrite_of_legal (ha : a ≤ 255) (hv : v ≤ 255) :
    hostWrite a v s = .next (s.memWrite (BitVec.ofNat 8 a) (BitVec.ofNat 8 v)) := by
  rw [hostWrite, if_neg (Nat.not_lt.mpr ha), if_neg (Nat.not_lt.mpr hv)]

/-- `write` with an address or a value too wide is refused (R189). -/
theorem hostWrite_of_illegal (h : 255 < a ∨ 255 < v) : ∃ r, hostWrite a v s = .refused r := by
  unfold hostWrite
  split
  next => exact ⟨_, rfl⟩
  next ha => exact ⟨_, if_pos (h.resolve_left ha)⟩

/-- `read` of a byte address is the cell (R187). -/
theorem hostRead_toNat (w : Byte) (s : State) : hostRead w.toNat s = .value (s.memRead w) := by
  rw [hostRead, if_neg (Nat.not_lt.mpr (Nat.le_of_lt_succ w.isLt)), BitVec.ofNat_toNat, BitVec.setWidth_eq]

/-- `write` of a byte to a byte address is one store (R188). -/
theorem hostWrite_toNat (w b : Byte) (s : State) : hostWrite w.toNat b.toNat s = .next (s.memWrite w b) := by
  rw [hostWrite_of_legal (Nat.le_of_lt_succ w.isLt) (Nat.le_of_lt_succ b.isLt)]
  simp only [BitVec.ofNat_toNat, BitVec.setWidth_eq]

/-- Settles O46: `read` is the cell, `write` is one store, and what a store reads is `State.memWrite_memRead`. -/
theorem hostReadAndWriteReachOneCell : Obligations.HostReadAndWriteReachOneCell := by
  intro a v s
  have hread : hostRead a.toNat (s.memWrite a v) = .value v := by
    rw [hostRead_toNat, State.memWrite_memRead, if_pos rfl]
  have hbut : SameMemoryBut a s (s.memWrite a v) := fun w hw => (s.memWrite_memRead a v w).trans (if_neg hw)
  exact ⟨hostRead_toNat a s, _, hostWrite_toNat a v s, hread, hbut, frame_of_mem_only rfl⟩

/-- Settles O47: the range checks of `load`, `write` and `read`. -/
theorem hostDataTooWideIsRefused : Obligations.HostDataTooWideIsRefused :=
  fun _ => ⟨fun _ => hostLoad_of_illegal, fun _ _ => hostWrite_of_illegal, fun _ ha => ⟨_, if_pos ha⟩⟩

/-- Bytes written from `a` upward leave the cells below `a`, as long as the addresses do not wrap. -/
theorem writeFrom_memRead_below {w : Byte} (hfit : a + bytes.length ≤ 256) (hw : w.toNat < a) :
    (writeFrom a bytes s).memRead w = s.memRead w := by
  induction bytes generalizing a s with
  | nil => rfl
  | cons b rest ih =>
    rw [List.length_cons] at hfit
    have hne : w ≠ BitVec.ofNat 8 a := by
      rintro rfl
      rw [BitVec.toNat_ofNat, Nat.mod_eq_of_lt (by omega)] at hw
      omega
    calc (writeFrom (a + 1) rest (s.memWrite (BitVec.ofNat 8 a) (BitVec.ofNat 8 b))).memRead w
        = (s.memWrite (BitVec.ofNat 8 a) (BitVec.ofNat 8 b)).memRead w := ih (by omega) (by omega)
      _ = s.memRead w := by rw [State.memWrite_memRead, if_neg hne]

/-- After bytes are written from `a` upward, the cell at `a + i` holds byte `i`, or what it held when there is none. -/
theorem writeFrom_memRead {w : Byte} {i : Nat} (hfit : a + bytes.length ≤ 256) (hval : ∀ v ∈ bytes, v ≤ 255)
    (hw : w.toNat = a + i) : ((writeFrom a bytes s).memRead w).toNat = bytes[i]?.getD (s.memRead w).toNat := by
  induction bytes generalizing a s i with
  | nil => rfl
  | cons b rest ih =>
    rw [List.length_cons] at hfit
    obtain ⟨hb, hrest⟩ := List.forall_mem_cons.mp hval
    have haddr : (BitVec.ofNat 8 a).toNat = a := Nat.mod_eq_of_lt (by omega)
    rw [writeFrom]
    cases i with
    | zero =>
      have heq : w = BitVec.ofNat 8 a := BitVec.eq_of_toNat_eq (hw.trans haddr.symm)
      rw [writeFrom_memRead_below (by omega) (by omega), State.memWrite_memRead, if_pos heq]
      exact Nat.mod_eq_of_lt (by omega)
    | succ i =>
      have hne : w ≠ BitVec.ofNat 8 a := by
        rintro rfl
        omega
      have hw' : w.toNat = a + 1 + i := by omega
      rw [ih (by omega) hrest hw', State.memWrite_memRead, if_neg hne, List.getElem?_cons_succ]

/-- Settles O45: `writeFrom_memRead` at `LOAD_BASE`, and `load` changes memory only. -/
theorem loadCopiesTheBytes : Obligations.LoadCopiesTheBytes := by
  intro bytes s hlen hval
  have hload := hostLoad_of_legal (s := s) hlen hval
  have hfit : loadBase + bytes.length ≤ 256 := (Nat.zero_add _).trans_le hlen
  exact ⟨_, hload, fun w => writeFrom_memRead hfit hval (Nat.zero_add _).symm, frame_of_mem_only (hostLoad_eq hload)⟩

end Sys2Proof.Machine
end

section
/-! Decoding and encoding undo each other (spec/30_encoding.md sections 1 to 4). Both directions, and the bytes that
do not matter, rest on one description: the encoding of a mnemonic with two operand bytes is the first
`Mnemonic.length` of the three bytes. -/

namespace Sys2Proof

variable {opc : OpcodeMap} {f : FetchedBytes} {i : Instr}

/-- Every instruction is its mnemonic over some two operand bytes. -/
theorem Instr.exists_eq_instr (i : Instr) : ∃ a b, i = i.mnemonic.instr a b := by
  cases i with
  | ldi a b | mul a b | add a b | cmp a b => exact ⟨a, b, rfl⟩
  | prn a | push a | pop a | call a | jmp a | jeq a | jne a => exact ⟨a, 0, rfl⟩
  | hlt | ret => exact ⟨0, 0, rfl⟩

/-- The encoding is the bytes of the format: as many of the three as the mnemonic's length (30_encoding.md R70). -/
theorem encode_instr (opc : OpcodeMap) (m : Mnemonic) (a b : Byte) :
    encode opc (m.instr a b) = [opc m, a, b].take m.length := by
  cases m <;> rfl

/-- An operand byte past the mnemonic's length is not part of the instruction (30_encoding.md R75). -/
theorem Mnemonic.instr_congr {m : Mnemonic} {a b a' b' : Byte} (ha : 2 ≤ m.length → a = a')
    (hb : 3 ≤ m.length → b = b') : m.instr a b = m.instr a' b' := by
  cases m with
  | ldi | mul | add | cmp => rw [ha (by decide), hb (by decide)]
  | prn | push | pop | call | jmp | jeq | jne => exact congrArg _ (ha (by decide))
  | hlt | ret => rfl

/-- Every instruction has an opcode byte. -/
theorem Mnemonic.length_pos (m : Mnemonic) : 0 < m.length := by
  cases m <;> decide

/-- A mnemonic's opcode byte decodes to it with the operand bytes fetched (30_encoding.md R72). -/
theorem decode_of_opc (hinj : Function.Injective opc) {m : Mnemonic} (h : f.ir = opc m) :
    decode opc f = .instr (m.instr f.opA f.opB) := by
  rw [decode, h, decodeOpcode_opc hinj]

/-- What decodes to an instruction begins with its mnemonic's opcode byte and gives it its operands. -/
theorem eq_instr_of_decode (h : decode opc f = .instr i) : ∃ m, opc m = f.ir ∧ i = m.instr f.opA f.opB := by
  obtain ⟨m, hm, hd⟩ | ⟨-, hd⟩ := decode_cases opc f
  · cases hd.symm.trans h
    exact ⟨m, opc_of_decodeOpcode hm, rfl⟩
  · cases hd.symm.trans h

/-- Settles O8: the bytes in common fix the opcode byte and each operand byte within the length, and the instruction has
no other. -/
theorem decodeOfEncode : Obligations.DecodeOfEncode := by
  intro c i f hpre
  obtain ⟨a, b, hi⟩ := i.exists_eq_instr
  generalize i.mnemonic = m at hi
  subst hi
  rw [encode_instr, List.prefix_iff_getElem?] at hpre
  have hbyte (k : Nat) (hk : k < 3) (hlen : k < m.length) : f.toList[k]? = some [c.opc m, a, b][k] := by
    have hk' : k < ([c.opc m, a, b].take m.length).length := List.length_take ▸ Nat.lt_min.mpr ⟨hlen, hk⟩
    exact (hpre k hk').trans (congrArg some List.getElem_take)
  have hir : f.ir = c.opc m := Option.some.inj (hbyte 0 (by decide) m.length_pos)
  have hops : m.instr f.opA f.opB = m.instr a b := by
    refine Mnemonic.instr_congr (fun h => ?_) fun h => ?_
    · exact Option.some.inj (hbyte 1 (by decide) h)
    · exact Option.some.inj (hbyte 2 (by decide) h)
  rw [decode_of_opc c.opc_injective hir, hops]

/-- Settles O9: the instruction read is a mnemonic over the fetched bytes, and its encoding the first of them. -/
theorem encodeOfDecode : Obligations.EncodeOfDecode := by
  intro c i f h
  obtain ⟨m, hm, rfl⟩ := eq_instr_of_decode h
  rw [encode_instr, hm]
  exact List.take_prefix _ f.toList

/-- Settles O10: both fetches decode to the one mnemonic, over operands that `instr_congr` makes equal. -/
theorem unusedOperandBytesDoNotMatter : Obligations.UnusedOperandBytesDoNotMatter := by
  intro c m f g hf hg ha hb
  rw [decode_of_opc c.opc_injective hf, decode_of_opc c.opc_injective hg, Mnemonic.instr_congr ha hb]

/-- Settles O5: each word begins with the default byte of its mnemonic. -/
theorem defaultWordsDecode : Obligations.DefaultWordsDecode := by
  intro a b
  have h (m : Mnemonic) : decode defaultOpc ⟨defaultOpc m, a, b⟩ = .instr (m.instr a b) :=
    decode_of_opc defaultOpc_injective rfl
  exact ⟨h .ldi, h .prn, h .hlt, h .mul, h .add, h .push, h .pop, h .call, h .ret, h .cmp, h .jmp, h .jeq, h .jne⟩

/-- The opcode bytes of a map as numbers, in the order of the mnemonics. -/
def opcodeNumbers (opc : OpcodeMap) : List Nat := Mnemonic.all.map fun m => (opc m).toNat

/-- Under an injective map no two mnemonics share an opcode byte (30_encoding.md R79). -/
theorem opcodeNumbers_nodup (hinj : Function.Injective opc) : (opcodeNumbers opc).Nodup :=
  List.Nodup.map (fun _ _ h => hinj (BitVec.eq_of_toNat_eq h)) (by decide)

/-- The legal byte values are the opcode bytes of the mnemonics. -/
theorem mem_opcodeNumbers {n : Nat} :
    n ∈ opcodeNumbers opc ↔ n < 256 ∧ decodeOpcode opc (BitVec.ofNat 8 n) ≠ none := by
  simp only [opcodeNumbers, List.mem_map, Mnemonic.mem_all, true_and, ne_eq, decodeOpcode_eq_none, not_forall, not_not]
  constructor
  · rintro ⟨m, rfl⟩
    exact ⟨(opc m).isLt, m, by simp⟩
  · rintro ⟨hn, m, hm⟩
    exact ⟨m, by rw [hm, BitVec.toNat_ofNat, Nat.mod_eq_of_lt hn]⟩

/-- So the legal ones among the 256 byte values number 13. -/
theorem length_filter_legal (hinj : Function.Injective opc) :
    ((List.range 256).filter fun n => !(decodeOpcode opc (BitVec.ofNat 8 n)).isNone).length = 13 := by
  have hperm : ((List.range 256).filter fun n => !(decodeOpcode opc (BitVec.ofNat 8 n)).isNone).Perm
      (opcodeNumbers opc) := by
    rw [List.perm_ext_iff_of_nodup (List.nodup_range.filter _) (opcodeNumbers_nodup hinj)]
    simp [mem_opcodeNumbers, Option.isSome_iff_ne_none]
  exact hperm.length_eq.trans (List.length_map _)

/-- Settles O7: of the 256 byte values the 13 legal ones are taken away. -/
theorem illegalOpcodesNumber243 : Obligations.IllegalOpcodesNumber243 := by
  intro c
  have hsum := (List.range 256).length_eq_length_filter_add fun n => (decodeOpcode c.opc (BitVec.ofNat 8 n)).isNone
  rw [length_filter_legal c.opc_injective, List.length_range] at hsum
  omega

end Sys2Proof
end

section
/-! The invariant of the machine (spec/10_state.md sections 5 to 9): it holds at reset, and every step and every act
of the host keeps it. -/

namespace Sys2Proof.Machine

variable {c : Config} {i : Instr} {s t : State}

/-- The comparison answers legal flags (10_state.md R36). -/
theorem cmp8_legal (a b : Byte) : legalFlags (cmp8 a b) := by
  obtain ⟨-, h⟩ | ⟨-, h⟩ | ⟨-, h⟩ := cmp8_cases a b
  · exact .inr (.inl h)
  · exact .inr (.inr (.inl h))
  · exact .inr (.inr (.inr h))

/-- Every effect keeps the flags legal: CMP writes the comparison's, the others write none. -/
theorem effect_legalFlags (h : legalFlags s.fl) : legalFlags (effect i s).fl := by
  cases i with
  | cmp => exact cmp8_legal _ _
  | ldi | prn | hlt | mul | add | push | pop | call | ret | jmp | jeq | jne => exact h

/-- Every effect keeps memory canonical: it writes none, or one cell. -/
theorem effect_mem_wf (h : s.mem.wf) : (effect i s).mem.wf := by
  cases i with
  | push | call => exact Memory.write_wf h _ _
  | ldi | prn | hlt | mul | add | pop | ret | cmp | jmp | jeq | jne => exact h

/-- A raise on a RUNNING unit keeps the invariant. -/
theorem machineInv_raise {code : FaultLatch} {info : Byte} (h : MachineInv s) (hrun : s.runState = .running)
    (hcode : code ≠ .noFault) : MachineInv (s.raise code info) where
  mem_wf := h.mem_wf
  flags_legal := h.flags_legal
  faulted_running := fun _ => (s.runState_running_iff.mp hrun).2
  info_clear := fun hnone => absurd hnone hcode

/-- An effect on a RUNNING unit keeps the invariant: there is no latched fault, and it latches none. -/
theorem machineInv_effect (h : MachineInv s) (hrun : s.runState = .running) : MachineInv (effect i s) where
  mem_wf := effect_mem_wf h.mem_wf
  flags_legal := effect_legalFlags h.flags_legal
  faulted_running := fun hf => absurd (effect_fault.trans (s.runState_running_iff.mp hrun).1) hf
  info_clear := fun hnone => effect_faultInfo.trans (h.info_clear (effect_fault.symm.trans hnone))

/-- A step keeps the invariant. -/
theorem machineInv_stepWith (h : MachineInv s) (hs : stepWith c s = .next t) : MachineInv t := by
  obtain ⟨-, hstep⟩ | ⟨hrun, ir, -, hstep⟩ | ⟨hrun, i, -, hstep⟩ := stepWith_cases c s
  · cases hstep.symm.trans hs
    exact h
  · cases hstep.symm.trans hs
    exact machineInv_raise h hrun (by decide)
  · obtain ⟨b, -, hexec⟩ | ⟨-, hexec⟩ := exec_cases i s
    · cases (hstep.trans hexec).symm.trans hs
      exact machineInv_raise h hrun (by decide)
    · cases (hstep.trans hexec).symm.trans hs
      exact machineInv_effect h hrun

/-- Settles O41: the default step is the step of the default configuration. -/
theorem stepKeepsInv : Obligations.StepKeepsInv :=
  ⟨fun _ _ => machineInv_stepWith, fun _ _ _ => machineInv_stepWith⟩

/-- Settles O40: reset memory is canonical, and the other three are the reset values. -/
theorem resetMeetsInv : Obligations.ResetMeetsInv :=
  fun c => ⟨Memory.reset_wf c.spReset, .inl rfl, fun _ => rfl, fun _ => rfl⟩

/-- What changes memory only keeps the invariant if it keeps memory canonical. -/
theorem machineInv_of_mem_only (h : MachineInv s) (ht : t = { s with mem := t.mem }) (hwf : t.mem.wf) :
    MachineInv t := by
  rw [ht]
  exact ⟨hwf, h.flags_legal, h.faulted_running, h.info_clear⟩

/-- A `load` that is not refused writes its bytes from `LOAD_BASE` upward (70_reset_and_hazards.md R186). -/
theorem eq_writeFrom_of_hostLoad {bytes : List Nat} (h : hostLoad bytes s = .next t) :
    t = writeFrom loadBase bytes s := by
  by_cases hbad : 256 < bytes.length ∨ ∃ v ∈ bytes, 255 < v
  · obtain ⟨r, hr⟩ := hostLoad_of_illegal (s := s) hbad
    cases hr.symm.trans h
  · push Not at hbad
    obtain ⟨hlen, hval⟩ := hbad
    cases (hostLoad_of_legal hlen hval).symm.trans h
    rfl

/-- A `write` that is not refused is one store (70_reset_and_hazards.md R188). -/
theorem eq_memWrite_of_hostWrite {a v : Nat} (h : hostWrite a v s = .next t) :
    t = s.memWrite (BitVec.ofNat 8 a) (BitVec.ofNat 8 v) := by
  by_cases hbad : 255 < a ∨ 255 < v
  · obtain ⟨r, hr⟩ := hostWrite_of_illegal (s := s) hbad
    cases hr.symm.trans h
  · push Not at hbad
    obtain ⟨ha, hv⟩ := hbad
    cases (hostWrite_of_legal ha hv).symm.trans h
    rfl

/-- `load` keeps the invariant. -/
theorem machineInv_hostLoad {bytes : List Nat} (h : MachineInv s) (ht : hostLoad bytes s = .next t) :
    MachineInv t := by
  refine machineInv_of_mem_only h (hostLoad_eq ht) ?_
  rw [eq_writeFrom_of_hostLoad ht]
  exact writeFrom_wf _ _ _ h.mem_wf

/-- `write` keeps the invariant. -/
theorem machineInv_hostWrite {a v : Nat} (h : MachineInv s) (ht : hostWrite a v s = .next t) : MachineInv t := by
  refine machineInv_of_mem_only h (hostWrite_eq ht) ?_
  rw [eq_memWrite_of_hostWrite ht]
  exact Memory.write_wf h.mem_wf _ _

/-- Settles O42: `load` and `write` by their lemmas, and what reset leaves by `resetMeetsInv`. -/
theorem hostActsKeepInv : Obligations.HostActsKeepInv :=
  ⟨fun _ _ _ => machineInv_hostLoad, fun _ _ _ _ => machineInv_hostWrite, fun c _ => resetMeetsInv c⟩

/-- The invariant holds of every reachable state. -/
theorem machineInv_of_reachable (h : Reachable c s) : MachineInv s := by
  induction h with
  | reset => exact resetMeetsInv c
  | step _ _ _ hs ih => exact machineInv_stepWith ih hs
  | load _ _ _ _ ht ih => exact machineInv_hostLoad ih ht
  | write _ _ _ _ _ ht ih => exact machineInv_hostWrite ih ht

/-- Settles O43: what the run states say of the flag and the latch, put into the invariant. -/
theorem reachableStatesMeetInv : Obligations.ReachableStatesMeetInv := by
  intro c s hreach
  have h : MachineInv s := machineInv_of_reachable hreach
  exact ⟨h, fun hf => h.faulted_running (s.runState_faulted_iff.mp hf),
    fun hh => h.info_clear (s.runState_halted_iff.mp hh).1⟩

end Sys2Proof.Machine
end

section
/-! The canonical form of memory represents it uniquely (spec/10_state.md section 7). -/

namespace Sys2Proof.Machine

/-- In canonical form an address is listed once, so looking it up finds its cell. -/
theorem Memory.find?_cells_eq_some {m : Memory} (h : m.wf) {d : Host.Cell} {k : Nat} :
    (m.cells.find? fun c => c.1 == k) = some d ↔ d ∈ m.cells ∧ d.1 = k := by
  have honce : (m.cells.map Prod.fst).Nodup := List.pairwise_map.mpr (h.1.imp Nat.ne_of_lt)
  constructor
  · exact fun hd => ⟨List.mem_of_find?_eq_some hd, by simpa using List.find?_some hd⟩
  · rintro ⟨hd, rfl⟩
    obtain ⟨e, he⟩ : ∃ e, (m.cells.find? fun c => c.1 == d.1) = some e :=
      Option.isSome_iff_exists.mp (List.find?_isSome.mpr ⟨d, hd, by simp⟩)
    have hfst : e.1 = d.1 := by simpa using List.find?_some he
    rw [he, List.inj_on_of_nodup_map honce (List.mem_of_find?_eq_some he) hd hfst]

/-- In canonical form the listed cells are the addresses below 256 with the byte read there, when that byte is not what
an unlisted cell reads as (10_state.md R45). -/
theorem Memory.mem_cells_iff {m : Memory} (h : m.wf) {d : Host.Cell} :
    d ∈ m.cells ↔ d.1 < 256 ∧ d.2 ≠ Memory.unlisted ∧ m.read (BitVec.ofNat 8 d.1) = d.2 := by
  have haddr (hlt : d.1 < 256) : (BitVec.ofNat 8 d.1).toNat = d.1 := Nat.mod_eq_of_lt hlt
  constructor
  · intro hd
    obtain ⟨hlt, hne⟩ := h.2 d hd
    refine ⟨hlt, hne, ?_⟩
    rw [Memory.read, haddr hlt, (Memory.find?_cells_eq_some h).mpr ⟨hd, rfl⟩]
  · rintro ⟨hlt, hne, hread⟩
    rw [Memory.read, haddr hlt] at hread
    split at hread
    next e he =>
      obtain ⟨hmem, hfst⟩ := (Memory.find?_cells_eq_some h).mp he
      exact (Prod.ext hfst hread : e = d) ▸ hmem
    next => exact absurd hread.symm hne

/-- Settles O44: canonical memories that read alike list the same cells, and both list them by rising address. -/
theorem canonicalMemoriesAreEqual : Obligations.CanonicalMemoriesAreEqual := by
  intro m n hm hn hread
  have hsame (d : Host.Cell) : d ∈ m.cells ↔ d ∈ n.cells := by
    rw [Memory.mem_cells_iff hm, Memory.mem_cells_iff hn, hread]
  have hperm : m.cells.Perm n.cells := by
    refine (List.perm_ext_iff_of_nodup (hm.1.imp fun hlt => ?_) (hn.1.imp fun hlt => ?_)).mpr hsame
    all_goals exact ne_of_apply_ne Prod.fst (Nat.ne_of_lt hlt)
  have hcells : m.cells = n.cells :=
    hperm.eq_of_pairwise (fun _ _ _ _ hlt hgt => absurd hgt (Nat.lt_asymm hlt)) hm.1 hn.1
  exact congrArg Memory.mk hcells

end Sys2Proof.Machine
end

section
/-! What no instruction does: stop the model, fault on register operands 0 to 7, store outside the stack, read the
control state or the output (spec/60_exceptions.md section 1, spec/20_memory.md section 2, spec/10_state.md sections 6
and 7). -/

namespace Sys2Proof.Machine

variable {i : Instr} {s : State}

/-- Settles O29: an instruction answers a next state with a bad operand and without (`exec_cases`), and the other steps
are next states themselves. -/
theorem stepAlwaysAnswersNext : Obligations.StepAlwaysAnswersNext := by
  intro c s
  obtain ⟨-, hstep⟩ | ⟨-, ir, -, hstep⟩ | ⟨-, i, -, hstep⟩ := stepWith_cases c s
  · exact ⟨_, hstep⟩
  · exact ⟨_, hstep⟩
  · obtain ⟨b, -, hexec⟩ | ⟨-, hexec⟩ := exec_cases i s
    · exact ⟨_, hstep.trans hexec⟩
    · exact ⟨_, hstep.trans hexec⟩

/-- A well-formed instruction has no bad operand, whatever the flags: the checked operands are among its register
operands (60_exceptions.md R162). -/
theorem badOperand_of_wellFormed {fl : Byte} (h : i.WellFormed) : badOperand fl i = none := by
  rw [badOperand_eq_none_iff]
  cases i with
  | ldi a | prn a | push a | pop a | call a | jmp a =>
    have ha : a.toNat < 8 := of_decide_eq_true h
    simpa [checkedOperands] using ha
  | jeq a | jne a =>
    have ha : a.toNat < 8 := of_decide_eq_true h
    simpa [checkedOperands] using fun _ => ha
  | mul a b | add a b | cmp a b =>
    have hab : a.toNat < 8 ∧ b.toNat < 8 := by
      simpa [Instr.WellFormed, Instr.wellFormed, namesRegister] using h
    simpa [checkedOperands] using hab
  | hlt | ret => simp [checkedOperands]

/-- A well-formed instruction has its effect (60_exceptions.md R162). -/
theorem exec_of_wellFormed (h : i.WellFormed) : exec i s = .next (effect i s) :=
  exec_of_good (badOperand_of_wellFormed h)

/-- Settles O28: a well-formed instruction has its effect, which writes neither the latch nor its byte. -/
theorem wellFormedInstructionsNeverFault : Obligations.WellFormedInstructionsNeverFault :=
  fun _ _ h => ⟨_, exec_of_wellFormed h, effect_fault, effect_faultInfo⟩

/-- An effect that stores does so at the table's address. -/
theorem effect_sameMemoryBut {w : Byte} (h : storeAddress s i = some w) : SameMemoryBut w s (effect i s) := by
  cases i with
  | push a | call a =>
    obtain ⟨-, rfl⟩ : a.toNat < 8 ∧ sub8 s.sp 1#8 = w := by simpa [storeAddress] using h
    exact s.decSp_memWrite_sameMemoryBut _
  | ldi | prn | hlt | mul | add | pop | ret | cmp | jmp | jeq | jne => cases h

/-- Without a bad operand an instruction that the table gives no address stores nothing. -/
theorem effect_sameMemory (hgood : badOperand s.fl i = none) (h : storeAddress s i = none) :
    SameMemory s (effect i s) := by
  cases i with
  | push a | call a =>
    have ha : a.toNat < 8 := badOperand_eq_none_iff.mp hgood a (by simp [checkedOperands])
    simp [storeAddress, ha] at h
  | ldi | prn | hlt | mul | add | pop | ret | cmp | jmp | jeq | jne => exact fun _ => rfl

/-- Settles O33: a raise leaves all of memory; an effect stores at the table's address or nowhere. -/
theorem onlyPushAndCallStore : Obligations.OnlyPushAndCallStore := by
  intro i s
  obtain ⟨b, -, hs⟩ | ⟨hgood, hs⟩ := exec_cases i s
  · refine ⟨_, hs, ?_⟩
    split
    · exact fun _ _ => rfl
    · exact fun _ => rfl
  · refine ⟨_, hs, ?_⟩
    split
    next hw => exact effect_sameMemoryBut hw
    next hnone => exact effect_sameMemory hgood hnone

/-- The state with other control state and another output: the fields no instruction reads (10_state.md R37, R38, R42). -/
def State.withControl (s : State) (r : Bool) (f : FaultLatch) (b : Byte) (o : List Byte) : State :=
  { s with running := r, fault := f, faultInfo := b, out := o }

variable {r : Bool} {f : FaultLatch} {b : Byte} {o : List Byte}

/-- No effect reads them. -/
theorem effect_withControl (i : Instr) (s : State) {u : State} (hu : u = effect i (s.withControl r f b o)) :
    u.mem = (effect i s).mem ∧ u.x = (effect i s).x ∧ u.pc = (effect i s).pc ∧ u.fl = (effect i s).fl := by
  subst hu
  cases i <;> exact ⟨rfl, rfl, rfl, rfl⟩

/-- What an instruction emits does not depend on them. -/
theorem emitted_withControl : emitted (s.withControl r f b o) i = emitted s i := by
  cases i <;> rfl

/-- Settles O37: the operand checks see none of it, so both raise or both have their effect; a raise emits nothing, an
effect what `emitted` names. -/
theorem controlAndOutputAreNotRead : Obligations.ControlAndOutputAreNotRead := by
  intro i s r f b o
  obtain ⟨v, hv, hs⟩ | ⟨hgood, hs⟩ := exec_cases i s
  · exact ⟨_, _, [], hs, exec_of_bad hv, rfl, rfl, rfl, rfl, (List.append_nil _).symm, (List.append_nil _).symm⟩
  · have hu : exec i (s.withControl r f b o) = .next (effect i (s.withControl r f b o)) := exec_of_good hgood
    have hout : (effect i (s.withControl r f b o)).out = o ++ emitted s i :=
      (effect_out (s := s.withControl r f b o) hgood).trans (congrArg (o ++ ·) emitted_withControl)
    obtain ⟨hmem, hx, hpc, hfl⟩ := effect_withControl i s rfl
    exact ⟨_, _, emitted s i, hs, hu, hmem, hx, hpc, hfl, effect_out hgood, hout⟩

end Sys2Proof.Machine
end

section
/-! How a run ends (spec/70_reset_and_hazards.md section 6). -/

namespace Sys2Proof.Machine

variable {c : Config} {s t : State} {e e' : RunEnd}

/-- Induction over a run that returns: the state that ends it, then the RUNNING states before, from the last back. -/
theorem RunReturns.induction {P : ∀ s, RunReturns c s e → Prop}
    (stopped : ∀ s h, s.runState ≠ .running → s.runEnd = some e → P s h)
    (step : ∀ s t h ht, s.runState = .running → stepWith c s = .next t → P t ht → P s h)
    {s : State} (h : RunReturns c s e) : P s h := by
  obtain ⟨n, u, hn, he⟩ := h
  induction n generalizing s with
  | zero =>
    cases hn
    refine stopped _ _ (fun hrun => ?_) he
    cases (State.runEnd_of_running hrun).symm.trans he
  | succ n ih =>
    by_cases hrun : s.runState = .running
    · obtain ⟨t, hst, ht⟩ := (runFor_succ_of_running hrun).mp hn
      exact step _ t _ _ hrun hst (ih ht)
    · cases (runFor_of_stopped hrun).symm.trans hn
      exact stopped _ _ hrun he

/-- A run has one end: the state that ends it has one, and a step has one next state. -/
theorem RunReturns.unique (h : RunReturns c s e) (h' : RunReturns c s e') : e = e' := by
  induction h using RunReturns.induction with
  | stopped s _ hstop he => exact Option.some.inj (he.symm.trans ((runReturns_of_stopped hstop).mp h'))
  | step s t _ _ hrun hst ih =>
    obtain ⟨t', hst', ht'⟩ := (runReturns_of_running hrun).mp h'
    cases hst.symm.trans hst'
    exact ih ht'

/-- Settles O50: `RunReturns.unique`. -/
theorem runHasOneEnd : Obligations.RunHasOneEnd := fun _ _ _ _ => RunReturns.unique

/-- How the step from a RUNNING `u` to `t` ends a run with `e`: as an HLT, or as a raise whose error is surfaced
(70_reset_and_hazards.md R198). -/
def EndsAt (c : Config) (e : RunEnd) (u t : State) : Prop :=
  (e = .success t ∧ decode c.opc (fetch u) = .instr .hlt ∧ t = { u with running := false, pc := pcPlus u 1 }) ∨
  (∃ err, e = .failure t err ∧ t.surfacedError = some err ∧ t.fault ≠ .noFault ∧ t = Latched u t.fault t.faultInfo)

/-- HLT clears the running flag and passes its one byte (40_move_io_halt.md R102). -/
theorem effect_hlt_eq (s : State) : effect .hlt s = { s with running := false, pc := pcPlus s 1 } := by
  rw [← add8_pc s 1 1#8 rfl]
  rfl

/-- A step from RUNNING that leaves RUNNING ends the run in one of the two ways. -/
theorem endsAt_of_stopped (hrun : s.runState = .running) (hst : stepWith c s = .next t) (ht : t.runState ≠ .running)
    (he : t.runEnd = some e) : EndsAt c e s t := by
  obtain ⟨hfault, hrunning⟩ := s.runState_running_iff.mp hrun
  cases hr : t.runState with
  | running => exact absurd hr ht
  | halted =>
    obtain ⟨-, hstopped⟩ := t.runState_halted_iff.mp hr
    obtain ⟨hd, -, -⟩ := stepWith_running_ne hst (by simp [hstopped, hrunning])
    have hhlt : stepWith c s = .next (effect .hlt s) := (stepWith_of_instr hrun hd).trans (exec_of_good rfl)
    cases hhlt.symm.trans hst
    cases (State.runEnd_of_halted hr).symm.trans he
    exact .inl ⟨rfl, hd, effect_hlt_eq s⟩
  | faulted =>
    have hraised : t.fault ≠ .noFault := t.runState_faulted_iff.mp hr
    obtain ⟨err, herr⟩ := State.surfacedError_of_faulted hr
    cases (State.runEnd_of_error herr).symm.trans he
    exact .inr ⟨err, rfl, herr, hraised, (stepWith_eq_raise hfault hst hraised).2⟩

/-- Settles O51: back from the end of the run, either the next state is the one that ends it, and the step to it ended
the run, or the run from there gives the iteration, one later here. -/
theorem runIsEndedByHltOrFault : Obligations.RunIsEndedByHltOrFault := by
  intro c s e hrun h
  induction h using RunReturns.induction with
  | stopped s _ hstop => exact absurd hrun hstop
  | step s t _ hret _ hst ih =>
    by_cases ht : t.runState = .running
    · obtain ⟨n, u, f, hn, hu⟩ := ih ht
      exact ⟨n + 1, u, f, (runFor_succ_of_running hrun).mpr ⟨t, hst, hn⟩, hu⟩
    · exact ⟨0, s, t, rfl, hrun, hst, endsAt_of_stopped hrun hst ht ((runReturns_of_stopped ht).mp hret)⟩

end Sys2Proof.Machine
end

section
/-! The run states and the first step (spec/10_state.md section 6, spec/70_reset_and_hazards.md sections 1 and 4). -/

namespace Sys2Proof.Machine

/-- The code 0 is the latch without a fault (10_state.md R38). -/
theorem FaultLatch.code_eq_zero_iff (f : FaultLatch) : f.code = 0 ↔ f = .noFault := by
  cases f <;> decide

/-- The codes 1 and 2 are the two faults (10_state.md R38). -/
theorem FaultLatch.code_eq_one_or_two_iff (f : FaultLatch) : f.code = 1 ∨ f.code = 2 ↔ f ≠ .noFault := by
  cases f <;> decide

/-- The code 3 is never produced (10_state.md R38). -/
theorem FaultLatch.code_ne_three (f : FaultLatch) : f.code ≠ 3 := by
  cases f <;> decide

/-- Settles O48: the run states by latch and flag, with the latch's codes; a stopped unit's step by
`stepWith_of_stopped`. -/
theorem runStateOfLatchAndFlag : Obligations.RunStateOfLatchAndFlag := by
  intro c s
  rw [FaultLatch.code_eq_zero_iff, FaultLatch.code_eq_one_or_two_iff]
  exact ⟨s.runState_running_iff, s.runState_halted_iff, s.runState_faulted_iff, s.fault.code_ne_three,
    stepWith_of_stopped⟩

/-- The default map gives no mnemonic the byte 0 (log entry 1). -/
theorem defaultOpc_ne_zero (m : Mnemonic) : defaultOpc m ≠ 0 := by
  cases m <;> decide

/-- Settles O39: after reset the unit is RUNNING and its memory reads 0 at the pc, which is no opcode. -/
theorem firstStepAfterResetIsIllegal : Obligations.FirstStepAfterResetIsIllegal := by
  have hfirst (c : Config) (h : ∀ m, c.opc m ≠ 0) : stepWith c (State.resetWith c.spReset) =
      .next (Latched (State.resetWith c.spReset) .illegalInstruction 0) :=
    illegalOpcodeTakesTheFault c (State.resetWith c.spReset) rfl h
  exact ⟨hfirst, hfirst defaultConfig defaultOpc_ne_zero⟩

end Sys2Proof.Machine
end

section
/-! Two instructions in a row: what the step after an instruction needs to know of it. -/

namespace Sys2Proof.Machine

variable {c : Config} {i : Instr} {m : Mnemonic} {s : State} {a : Byte}

/-- The pc moved twice is moved by the sum. -/
theorem add8_add8 (p m n : Byte) : add8 (add8 p m) n = add8 p (m + n) := BitVec.add_assoc p m n

/-- Only HLT leaves the run state: no effect latches a fault, and no other clears the running flag. -/
theorem effect_runState (h : i ≠ .hlt) : (effect i s).runState = s.runState :=
  runState_of_sameControl ⟨effect_running.trans (if_neg h), effect_fault, effect_faultInfo⟩

/-- A RUNNING unit executes the instruction whose opcode byte and first operand byte are at the pc, if it has no
second. -/
theorem stepWith_of_memRead (hrun : s.runState = .running) (hop : s.memRead s.pc = c.opc m)
    (ha : s.memRead (add8 s.pc 1#8) = a) (hi : ∀ b, m.instr a b = i) : stepWith c s = exec i s := by
  refine stepWith_of_instr hrun ?_
  rw [decode_of_opc (f := fetch s) c.opc_injective hop, ← hi (fetch s).opB, ← ha]
  rfl

end Sys2Proof.Machine
end

section
/-! The laws of the stack (spec/42_stack_call.md). -/

namespace Sys2Proof.Machine

variable {s : State} {a b : Byte}

/-- PUSH of a register other than the stack pointer stores that register's value (42_stack_call.md R120). -/
theorem effect_push_top (ha : a.toNat < 8) (hne : a.toNat ≠ 7) :
    (effect (.push a) s).memRead (sub8 s.sp 1#8) = s.regAt a :=
  (s.decSp_memWrite_memRead_top _).trans ((State.decSp_regAt ha).trans (if_neg hne))

/-- POP into a register other than the stack pointer increments the stack pointer (42_stack_call.md R121). -/
theorem effect_pop_sp_of_ne (hb : b.toNat < 8) (hne : b.toNat ≠ 7) : (effect (.pop b) s).sp = add8 s.sp 1#8 := by
  have hsp : spIndex ≠ operandIndex b := Ne.symm ((operandIndex_eq_spIndex_iff hb).not.mpr hne)
  simp [effect, hsp]

/-- Settles O52: the push leaves the POP's bytes as they are, so the POP follows; it reads the cell the push wrote and
increments the stack pointer the push decremented. -/
theorem pushThenPopRestores : Obligations.PushThenPopRestores := by
  intro c a b s ha hb hrun hd hop hoperand hne2 hne3
  have ha8 : a.toNat < 8 := Nat.lt_succ_of_lt ha
  have hb8 : b.toNat < 8 := Nat.lt_succ_of_lt hb
  rw [← operandIndex_of_lt ha8, ← operandIndex_of_lt hb8]
  obtain ⟨t, ht⟩ : ∃ t, t = effect (.push a) s := ⟨_, rfl⟩
  have hpush : stepWith c s = .next t := ht ▸ (stepWith_of_instr hrun hd).trans (exec_of_single_lt rfl ha8)
  have htrun : t.runState = .running := ht ▸ (effect_runState (by simp)).trans hrun
  have htpc : t.pc = add8 s.pc 2#8 := ht ▸ rfl
  have htsp : t.sp = sub8 s.sp 1#8 := ht ▸ s.decSp_sp
  have htop : t.memRead t.sp = s.regAt a := htsp ▸ ht ▸ effect_push_top ha8 ha.ne
  have hkeep : SameMemoryBut (sub8 s.sp 1#8) s t := ht ▸ s.decSp_memWrite_sameMemoryBut _
  have hpop : stepWith c t = .next (effect (.pop b) t) := by
    refine (stepWith_of_memRead (m := .pop) htrun ?_ ?_ fun _ => rfl).trans (exec_of_single_lt rfl hb8)
    · rw [htpc, hkeep _ hne2.symm, hop]
    · rw [htpc, add8_add8]
      exact (hkeep _ hne3.symm).trans hoperand
  refine ⟨t, _, hpush, hpop, (effect_pop_reg hb8 hb.ne).trans htop, ?sp, ?pc⟩
  case sp => rw [effect_pop_sp_of_ne hb8 hb.ne, htsp, add8_sub8]
  case pc =>
    have hpc : (effect (.pop b) t).pc = add8 s.pc 4#8 :=
      (congrArg (add8 · 2#8) htpc).trans (add8_add8 s.pc 2#8 2#8)
    exact hpc ▸ add8_toNat s.pc 4#8

/-- Settles O53: the cell RET reads is the one CALL stored the return address in, and the increment undoes the
decrement. -/
theorem callThenReturnResumes : Obligations.CallThenReturnResumes := by
  intro a s t u ha hcall hsp hcell
  cases (exec_of_single_lt rfl ha).symm.trans hcall
  have htsp : (effect (.call a) s).sp = sub8 s.sp 1#8 := s.decSp_sp
  have hpc : (effect .ret u).pc = add8 s.pc 2#8 := by
    change u.memRead u.sp = _
    rw [hcell, htsp]
    exact s.decSp_memWrite_memRead_top _
  refine ⟨_, exec_of_good rfl, hpc ▸ add8_toNat s.pc 2#8, ?_⟩
  calc (effect .ret u).sp = add8 u.sp 1#8 := State.incSp_sp _
    _ = s.sp := by rw [hsp, htsp, add8_sub8]

end Sys2Proof.Machine
end

section
/-! The table of outcomes of comparison and branch (spec/43_compare_branch.md). -/

namespace Sys2Proof.Machine

/-- The comparison's bit E is equality. -/
theorem cmp8_odd_iff (a b : Byte) : (cmp8 a b).toNat % 2 = 1 ↔ a = b := by
  obtain ⟨heq, h⟩ | ⟨hgt, h⟩ | ⟨hlt, h⟩ := cmp8_cases a b
  · rw [h]
    exact iff_of_true rfl heq
  · rw [h]
    exact iff_of_false (by decide) (ne_of_apply_ne BitVec.toNat hgt.ne')
  · rw [h]
    exact iff_of_false (by decide) (ne_of_apply_ne BitVec.toNat hlt.ne)

/-- The comparison sets exactly one of the bits E, G and L. -/
theorem cmp8_count (a b : Byte) :
    [(cmp8 a b).getLsbD 0, (cmp8 a b).getLsbD 1, (cmp8 a b).getLsbD 2].count true = 1 := by
  obtain ⟨-, h⟩ | ⟨-, h⟩ | ⟨-, h⟩ := cmp8_cases a b
  all_goals rw [h]; decide

/-- Settles O54: the branches read bit E, which is the equality, and keep the registers CMP left. -/
theorem compareThenBranch : Obligations.CompareThenBranch := by
  intro a b d s ha hb hd
  rw [← operandIndex_of_lt ha, ← operandIndex_of_lt hb, ← operandIndex_of_lt hd]
  have hpast : add8 (add8 s.pc 3#8) 2#8 = pcPlus s 5 := (add8_add8 _ _ _).trans (add8_pc s 5 _ rfl)
  have hE := cmp8_odd_iff (s.regAt a) (s.regAt b)
  refine ⟨_, _, _, exec_of_pair_lt rfl ha hb, exec_of_wellFormed (i := .jeq d) (decide_eq_true hd),
    exec_of_wellFormed (i := .jne d) (decide_eq_true hd), cmp8_count _ _, ?jeq, ?jne⟩
  case jeq => exact ite_congr (propext hE) (fun _ => rfl) fun _ => hpast
  case jne =>
    have hclear : (cmp8 (s.regAt a) (s.regAt b)).toNat % 2 = 0 ↔ ¬ s.regAt a = s.regAt b := by
      rw [← hE]
      exact Nat.mod_two_ne_one.symm
    exact (ite_congr (propext hclear) (fun _ => rfl) fun _ => hpast).trans (ite_not _ _ _)

end Sys2Proof.Machine
end

section
/-! A stored byte is fetched next (spec/20_memory.md section 4). -/

namespace Sys2Proof.Machine

/-- Settles O55: a fetch at `p` reads the cell there, and that is `decSp_memWrite_memRead` for both stores. -/
theorem storedByteIsFetchedNext : Obligations.StoredByteIsFetchedNext := by
  intro a p s h
  rw [← operandIndex_of_lt h]
  refine ⟨_, _, exec_of_single_lt rfl h, exec_of_single_lt rfl h, ?push, ?call⟩
  case push => exact (s.decSp_memWrite_memRead _ p).trans (by rw [State.decSp_regAt h]; rfl)
  case call => exact (s.decSp_memWrite_memRead _ p).trans (by rw [add8_pc s 2 _ rfl])

end Sys2Proof.Machine
end

section
/-! The source's properties under spec/40_move_io_halt.md R100 and spec/41_alu.md R111. -/

namespace Sys2Proof.Machine

variable {c : Config} {s : State} {a : Byte}

/-- Settles O56: LDI leaves the unit RUNNING before the HLT, whose step leaves it HALTED. -/
theorem ldiThenHltLeavesTheValue : Obligations.LdiThenHltLeavesTheValue := by
  intro c a imm s ha hrun hd hop
  rw [← operandIndex_of_lt ha]
  obtain ⟨t, ht⟩ : ∃ t, t = effect (.ldi a imm) s := ⟨_, rfl⟩
  have hldi : stepWith c s = .next t := ht ▸ (stepWith_of_instr hrun hd).trans (exec_of_single_lt rfl ha)
  have htrun : t.runState = .running := ht ▸ (effect_runState (by simp)).trans hrun
  have htop : t.memRead t.pc = c.opc .hlt := ht ▸ hop
  have hhlt : stepWith c t = .next (effect .hlt t) :=
    (stepWith_of_memRead htrun htop rfl fun _ => rfl).trans (exec_of_good rfl)
  have hhalted : (effect .hlt t).runState = .halted := effect_hlt_runState (t.runState_running_iff.mp htrun).1
  have hend : RunReturns c (effect .hlt t) (.success (effect .hlt t)) :=
    (runReturns_of_stopped (by simp [hhalted])).mpr (State.runEnd_of_halted hhalted)
  refine ⟨_, (runReturns_of_running hrun).mpr ⟨t, hldi, (runReturns_of_running htrun).mpr ⟨_, hhlt, hend⟩⟩, ?_⟩
  subst ht
  have hpc : (effect .hlt (effect (.ldi a imm) s)).pc = add8 s.pc 4#8 := add8_add8 s.pc 3#8 1#8
  refine ⟨?reg, rfl, hpc ▸ add8_toNat s.pc 4#8, fun k hk => ?regs, fun _ => rfl, rfl, rfl⟩
  case reg => simp [effect]
  case regs => exact effect_reg (i := .ldi a imm) hk

/-- A PRN after an instruction that writes `v` to its register and advances by 3 emits `v`. -/
theorem prn_after_setReg {v : Byte} (ha : a.toNat < 8) (hrun : s.runState = .running)
    (hs : stepWith c s = .next ((s.setReg (operandIndex a) v).advance 3#8))
    (hop : s.memRead (add8 s.pc 3#8) = c.opc .prn) (hoperand : s.memRead (add8 s.pc 4#8) = a) :
    ∃ t u, stepWith c s = .next t ∧ stepWith c t = .next u ∧ u.out = s.out ++ [v] := by
  obtain ⟨t, ht⟩ : ∃ t, t = (s.setReg (operandIndex a) v).advance 3#8 := ⟨_, rfl⟩
  have htrun : t.runState = .running := ht ▸ hrun
  have htop : t.memRead t.pc = c.opc .prn := ht ▸ hop
  have htoperand : t.memRead (add8 t.pc 1#8) = a := by
    rw [ht, State.advance_pc, add8_add8]
    exact hoperand
  have hprn : stepWith c t = .next (effect (.prn a) t) :=
    (stepWith_of_memRead htrun htop htoperand fun _ => rfl).trans (exec_of_single_lt rfl ha)
  refine ⟨t, _, ht ▸ hs, hprn, ?_⟩
  simp [effect, ht, State.regAt]

/-- Settles O57: both instructions leave their result in the register, and the PRN emits it. -/
theorem addOrMulThenPrnEmitsTheResult : Obligations.AddOrMulThenPrnEmitsTheResult := by
  intro c a b s ha hb hrun hop hoperand
  rw [← operandIndex_of_lt ha, ← operandIndex_of_lt hb]
  constructor
  · intro hd
    rw [← add8_toNat, BitVec.ofNat_toNat, BitVec.setWidth_eq]
    exact prn_after_setReg ha hrun ((stepWith_of_instr hrun hd).trans (exec_of_pair_lt rfl ha hb)) hop hoperand
  · intro hd
    rw [← mul8_toNat, BitVec.ofNat_toNat, BitVec.setWidth_eq]
    exact prn_after_setReg ha hrun ((stepWith_of_instr hrun hd).trans (exec_of_pair_lt rfl ha hb)) hop hoperand

end Sys2Proof.Machine
end
